-- ==== Sys2Proof/Word.lean ====
section
/-! DEFINITION. The value types of the engine: bytes, 32-bit words and groups of eight words (00_scope.md R10, R12).
Every value is unsigned and of a fixed width, so addition on them is the spec's addition modulo 2^32. -/

namespace Sys2Proof

/-- `u8` of R10. -/
abbrev Byte := BitVec 8

/-- `u32` of R10. Its `+`, `^^^`, `&&&` and `~~~` are R12's `+`, `^`, `&` and `~`. -/
abbrev Word := BitVec 32

/-- Eight 32-bit words, as the hash state `H[0..7]` (10_state.md R31) and the table `IV[0..7]` (R41) hold them:
field `w<i>` is the word of index i. -/
structure Hash where
  w0 : Word
  w1 : Word
  w2 : Word
  w3 : Word
  w4 : Word
  w5 : Word
  w6 : Word
  w7 : Word
deriving DecidableEq, Repr

/-- The eight working variables of the compression function (10_state.md R39). `h0` is the eighth of them, not the
hash-state word `H[0]` (00_scope.md R16). -/
structure Work where
  a : Word
  b : Word
  c : Word
  d : Word
  e : Word
  f : Word
  g : Word
  h0 : Word
deriving DecidableEq, Repr

end Sys2Proof
end

