-- ==== Sys2Proof/Machine/Operands.lean ====
section
/-! DEFINITION. The fields of a command word (30_encoding.md R93), the opcode values (R96) and the operand forms (R95). -/

namespace Sys2Proof.Machine

/-- R93: `OPC = w[31:24]`. -/
def opcOf (w : Word) : Byte := w.extractLsb' 24 8

/-- R93: `RSV = w[23:8]`, which is 0 in every legal command. -/
def rsvOf (w : Word) : BitVec 16 := w.extractLsb' 8 16

/-- R93: `ARG = w[7:0]`. -/
def argOf (w : Word) : Byte := w.extractLsb' 0 8

/-- R93: the word of format C with the given opcode and argument, `RSV = 0`. -/
def formatC (opc arg : Byte) : Word := opc ++ 0#16 ++ arg

/-- R96. -/
def opcIngest : Byte := 0x01

/-- R96. -/
def opcFinalize : Byte := 0x02

/-- R96. -/
def opcRdword : Byte := 0x03

/-- R96. -/
def opcRdchar : Byte := 0x04

/-- R96. -/
def opcRdstat : Byte := 0x05

/-- R95: the operand of `RDWORD` is legal when `ARG[7:3] = 0`. -/
def wordIndexLegal (arg : Byte) : Bool := arg.extractLsb' 3 5 == 0#5

/-- R95: `i = ARG[2:0]`. -/
def wordIndex (arg : Byte) : BitVec 3 := arg.extractLsb' 0 3

/-- R95: the argument byte of `RDWORD i`, `ARG[7:3] = 0`. -/
def wordIndexArg (i : BitVec 3) : Byte := 0#5 ++ i

/-- R95: the operand of `RDCHAR` is legal when it is in 0..66. -/
def charIndexLegal (arg : Byte) : Bool := decide (arg.toNat ≤ 66)

end Sys2Proof.Machine
end

