-- ==== Sys2Proof/Syntax.lean ====
section
/-! DEFINITION. The commands of the engine, one constructor per row of spec/opcode_table.json (30_encoding.md R96). -/

namespace Sys2Proof

/-- The five commands. Their operands are those of R95, already taken out of the command word. -/
inductive Instr where
  /-- `INGEST b`: append one byte to the message (40_ingest.md R120). -/
  | ingest (b : Byte)
  /-- `FINALIZE`: pad, compress the final block or blocks, enter phase FINALIZED (42_finalize.md R180). -/
  | finalize
  /-- `RDWORD i`: read hash-state word i, 0..7 (43_readout.md R210). -/
  | rdword (i : BitVec 3)
  /-- `RDCHAR j`: read byte j of the digest string; `j` is the argument byte, and only 0..66 is legal (43_readout.md R212). -/
  | rdchar (j : Byte)
  /-- `RDSTAT`: read the status register (43_readout.md R214). -/
  | rdstat
deriving DecidableEq, Repr

end Sys2Proof
end

