-- ==== Sys2Proof/WellFormed.lean ====
section
/-! DEFINITION. Which commands the syntax can write and the hardware has (30_encoding.md R95). -/

namespace Sys2Proof

/-- The operand ranges of R95 that the types do not already hold: `RDCHAR` takes an index in 0..66. -/
def Instr.wellFormed : Instr → Bool
  | .ingest _ => true
  | .finalize => true
  | .rdword _ => true
  | .rdchar j => decide (j.toNat ≤ 66)
  | .rdstat => true

/-- The check as a proposition. -/
abbrev Instr.WellFormed (i : Instr) : Prop := i.wellFormed = true

end Sys2Proof
end

