-- ==== Sys2Proof/Decode.lean ====
section
/-! DEFINITION. The decoder (30_encoding.md R97), total on all 2^32 words and rejecting by name (R98), and after it the
encoder (R93, R96). Decoding reads the word alone, never the phase (R97). -/

namespace Sys2Proof

/-- Why a word is illegal: the classes (a) to (e) of R98. -/
inductive Illegal where
  /-- R98 (a): `RSV ≠ 0`. -/
  | reservedField
  /-- R98 (b): `OPC = 0x00` or `OPC` in `0x06 .. 0xFF`. -/
  | unassignedOpcode
  /-- R98 (c): `FINALIZE` with `ARG ≠ 0`. -/
  | finalizeArg
  /-- R98 (c): `RDSTAT` with `ARG ≠ 0`. -/
  | rdstatArg
  /-- R98 (d): `RDWORD` with `ARG[7:3] ≠ 0`. -/
  | rdwordIndex
  /-- R98 (e): `RDCHAR` with `ARG` in 67..255. -/
  | rdcharIndex
deriving DecidableEq, Repr

open Machine in
/-- `Decode(w)` of R97. -/
def decode (w : Word) : Except Illegal Instr :=
  if rsvOf w ≠ 0 then .error .reservedField
  else if opcOf w = opcIngest then .ok (.ingest (argOf w))
  else if opcOf w = opcFinalize then
    if argOf w = 0 then .ok .finalize else .error .finalizeArg
  else if opcOf w = opcRdword then
    if wordIndexLegal (argOf w) then .ok (.rdword (wordIndex (argOf w))) else .error .rdwordIndex
  else if opcOf w = opcRdchar then
    if charIndexLegal (argOf w) then .ok (.rdchar (argOf w)) else .error .rdcharIndex
  else if opcOf w = opcRdstat then
    if argOf w = 0 then .ok .rdstat else .error .rdstatArg
  else .error .unassignedOpcode

/-- The opcode byte of a command (R96). -/
def opcodeByte : Instr → Byte
  | .ingest _ => Machine.opcIngest
  | .finalize => Machine.opcFinalize
  | .rdword _ => Machine.opcRdword
  | .rdchar _ => Machine.opcRdchar
  | .rdstat => Machine.opcRdstat

/-- The argument byte of a command (R95). -/
def argByte : Instr → Byte
  | .ingest b => b
  | .finalize => 0x00
  | .rdword i => Machine.wordIndexArg i
  | .rdchar j => j
  | .rdstat => 0x00

/-- The command word of a command, from the table of R96. -/
def encode (i : Instr) : Word := Machine.formatC (opcodeByte i) (argByte i)

/-- R102: every legal word, family by family: 256 `INGEST`, 1 `FINALIZE`, 8 `RDWORD`, 67 `RDCHAR`, 1 `RDSTAT`. -/
def legalWords : List Word :=
  (List.range 256).map (fun n => encode (.ingest (BitVec.ofNat 8 n))) ++ [encode .finalize]
    ++ (List.range 8).map (fun n => encode (.rdword (BitVec.ofNat 3 n)))
    ++ (List.range 67).map (fun n => encode (.rdchar (BitVec.ofNat 8 n))) ++ [encode .rdstat]

/-- The command word whose low `nbits` bits are those of `w` and whose other bits are 0 (log 15). -/
def tableWord (nbits w : Nat) : Word := BitVec.ofNat 32 (w % 2 ^ nbits)

/-- What the decoder reads from the bits of one row of spec/opcode_table.json; a row wider than the one command word
there is (R94) decodes to nothing (log 15). -/
def decodeTableWord (nbits w : Nat) : Option Instr :=
  if w % 2 ^ nbits < 2 ^ 32 then
    match decode (tableWord nbits w) with
    | .ok i => some i
    | .error _ => none
  else none

end Sys2Proof
end

