-- ==== Sys2Proof/Config.lean ====
section
/-! DEFINITION. What is fixed for this hardware beside its rules: its names (00_scope.md R2) and the one convention the
model adds about bytes that nothing has written. There is no free value: the spec leaves no command's result open
(30_encoding.md R91). The open parameter `latency` of 00_scope.md R9 is an argument of `Machine.elapsed`, and
`ninstances` is the length of a list of engines (`Machine/Engines.lean`). -/

namespace Sys2Proof

/-- R2: the engine's name. -/
def Config.engineName : String := "SHA256-CE"

/-- R2: the name of its command set. -/
def Config.commandSetName : String := "SHA256-CE/CMD v1"

/-- What a cell of the pending buffer that nothing has written reads as. DESIGN CHOICE (log 3): 10_state.md R32 and R46
give it no value, and R47 says every choice computes the same results. Unsafe where a proof leans on the number. -/
def Config.unwrittenByte : Byte := 0x00

end Sys2Proof
end

