-- ==== Sys2Proof/Machine/Tables.lean ====
section
/-! DEFINITION. The fixed parameters of 00_scope.md R8 and the two read-only constant tables (10_state.md R40, R41;
20_memory.md R71). They are no part of the state (10_state.md R30). -/

namespace Sys2Proof.Machine

/-- BLOCK of R8: bytes of one block. -/
def blockBytes : Nat := 64

/-- NROUNDS of R8. -/
def nRounds : Nat := 64

/-- NSCHED of R8 less the 16 words a block gives: how many schedule words are expanded. -/
def nExpanded : Nat := 48

/-- MAXLEN of R8: the largest message, in bytes, at the width of `LEN`. -/
def maxLen : BitVec 64 := BitVec.ofNat 64 (2 ^ 61 - 1)

/-- R40: `K[0..63]`, row r of the rule's table on line r. The values are the spec's (its D24; log 18). -/
def roundConstants : List Word :=
  [0x428a2f98, 0x71374491, 0xb5c0fbcf, 0xe9b5dba5, 0x3956c25b, 0x59f111f1, 0x923f82a4, 0xab1c5ed5] ++
  [0xd807aa98, 0x12835b01, 0x243185be, 0x550c7dc3, 0x72be5d74, 0x80deb1fe, 0x9bdc06a7, 0xc19bf174] ++
  [0xe49b69c1, 0xefbe4786, 0x0fc19dc6, 0x240ca1cc, 0x2de92c6f, 0x4a7484aa, 0x5cb0a9dc, 0x76f988da] ++
  [0x983e5152, 0xa831c66d, 0xb00327c8, 0xbf597fc7, 0xc6e00bf3, 0xd5a79147, 0x06ca6351, 0x14292967] ++
  [0x27b70a85, 0x2e1b2138, 0x4d2c6dfc, 0x53380d13, 0x650a7354, 0x766a0abb, 0x81c2c92e, 0x92722c85] ++
  [0xa2bfe8a1, 0xa81a664b, 0xc24b8b70, 0xc76c51a3, 0xd192e819, 0xd6990624, 0xf40e3585, 0x106aa070] ++
  [0x19a4c116, 0x1e376c08, 0x2748774c, 0x34b0bcb5, 0x391c0cb3, 0x4ed8aa4a, 0x5b9cca4f, 0x682e6ff3] ++
  [0x748f82ee, 0x78a5636f, 0x84c87814, 0x8cc70208, 0x90befffa, 0xa4506ceb, 0xbef9a3f7, 0xc67178f2]

/-- R40: `K[t]`. -/
def roundConst (t : Nat) : Word := roundConstants.getD t 0

/-- R41: `IV[0..7]` (values: the spec's D24; log 18). The one initial vector there is (R42). -/
def initialHash : Hash :=
  { w0 := 0x6a09e667, w1 := 0xbb67ae85, w2 := 0x3c6ef372, w3 := 0xa54ff53a,
    w4 := 0x510e527f, w5 := 0x9b05688c, w6 := 0x1f83d9ab, w7 := 0x5be0cd19 }

end Sys2Proof.Machine
end

