-- ==== Sys2Proof/Machine/State.lean ====
section
/-! DEFINITION. The state of one engine (10_state.md R30) as plain data, with the two records of the command port the
model adds (log 1, log 2), and the state after reset (R46; 70_reset_and_hazards.md R260). -/

namespace Sys2Proof.Machine

/-- 10_state.md R36. -/
inductive Phase where
  /-- The initial phase, in which `INGEST` and `FINALIZE` are legal. -/
  | accumulating
  /-- Entered by `FINALIZE`; the digest can be read. -/
  | finalized
  /-- Entered by any fault (60_exceptions.md R240); only the hardware reset leaves it (R242). -/
  | fault
deriving DecidableEq, Repr

/-- 60_exceptions.md R230: the causes of a fault of the engine. Taking one is a NEXT state, never a stop of the model. -/
inductive FaultCause where
  /-- Code 1: the word is not one of the 333 legal words (R231). -/
  | illegalCommand
  /-- Code 2: the command is legal but not in the current phase (R232). -/
  | invalidState
  /-- Code 3: the message would reach 2^61 bytes (R233). -/
  | inputTooLarge
deriving DecidableEq, Repr

/-- 30_encoding.md R92: what one command returns to the host. -/
inductive Response where
  /-- `NONE`. -/
  | none
  /-- `BYTE(v)`. -/
  | byte (v : Byte)
  /-- `WORD(v)`. -/
  | word (v : Word)
deriving DecidableEq, Repr

/-- What the host can do to the engine (70_reset_and_hazards.md R267). -/
inductive HostEvent where
  /-- Present one command word, any of the 2^32. -/
  | command (w : Word)
  /-- Assert the reset input (R260). -/
  | reset
  /-- Assert the reset input while the engine executes the word `w` (R262). -/
  | resetDuring (w : Word)
deriving DecidableEq, Repr

/-- The state: the tuple of R30, then the model's own record of the command port. -/
structure State where
  /-- `PHASE` (R36). -/
  phase : Phase
  /-- `FAULT_CODE` (R37). -/
  faultCode : BitVec 4
  /-- `FAULT_OPC` (R37). -/
  faultOpc : BitVec 8
  /-- `BUF_LEN` (R33). -/
  bufLen : BitVec 6
  /-- `LEN` (R34). -/
  len : BitVec 64
  /-- The MODEL's own field (log 1): what the host has presented and the engine has not taken yet, oldest first. -/
  input : List HostEvent
  /-- The MODEL's own field (log 2): the responses of the run in progress, oldest first. Nothing reads it. -/
  responses : List Response
  /-- `BUF[0..63]`, 64 byte cells (R32; 20_memory.md R70), as the cells that do not read as `Config.unwrittenByte`,
  addresses strictly rising. -/
  buf : List Host.Cell
  /-- `H[0..7]`, eight 32-bit registers (R31). It stands last, so that a check that compares two states comes to the hash,
  the one field that is costly to compute, after every other. -/
  hash : Hash
deriving DecidableEq, Repr

/-- Why the model stops with a fault: nothing does, so this type has no constructor. 60_exceptions.md R234 says no fault
exists beyond those of R230, each of those is a next state in phase FAULT (R240), and 30_encoding.md R91 gives every word
an outcome in every state (log 7). -/
inductive Fault where
deriving DecidableEq, Repr

/-- Why the model gives an instruction no meaning. -/
inductive Refusal where
  /-- Raised by an arm of `exec` for an instruction not modelled yet (safe). No arm raises it. -/
  | notModelled (mnemonic : String)
deriving DecidableEq, Repr

/-- The state after the hardware reset (R46, R260): every register at the value the spec states, the cells of `BUF`
unlisted (log 3), and the host's record empty (log 1, log 2). -/
def State.reset : State :=
  { phase := .accumulating, faultCode := 0, faultOpc := 0, bufLen := 0, len := 0, input := [], responses := [],
    buf := [], hash := initialHash }

end Sys2Proof.Machine
end

