-- ==== Sys2Proof/Machine/Ops.lean ====
section
/-! DEFINITION. The named operations over the pending buffer, the response port and the fault record. -/

namespace Sys2Proof.Machine

/-- The cell at address `a`; an unlisted one reads as `Config.unwrittenByte` (log 3). -/
def Memory.read : List Host.Cell → Nat → Byte
  | [], _ => Config.unwrittenByte
  | (c, d) :: m, a => if a = c then d else Memory.read m a

/-- The byte `b` written at address `a`, keeping the canonical form. -/
def Memory.write : List Host.Cell → Nat → Byte → List Host.Cell
  | [], a, b => if b = Config.unwrittenByte then [] else [(a, b)]
  | (c, d) :: m, a, b =>
    if a < c then
      if b = Config.unwrittenByte then (c, d) :: m else (a, b) :: (c, d) :: m
    else if a = c then
      if b = Config.unwrittenByte then m else (a, b) :: m
    else (c, d) :: Memory.write m a b

/-- The canonical form from address `lo` on: addresses at least `lo`, strictly rising, below 64 (20_memory.md R70), and
no entry equal to what an unlisted cell reads as. -/
def Memory.wfFrom : Nat → List Host.Cell → Bool
  | _, [] => true
  | lo, (c, d) :: m => decide (lo ≤ c) && decide (c < 64) && decide (d ≠ Config.unwrittenByte) && Memory.wfFrom (c + 1) m

/-- The canonical form of the pending buffer. -/
def Memory.wf (m : List Host.Cell) : Bool := Memory.wfFrom 0 m

/-- `MemRead(addr, n)` of 00_scope.md R13: n bytes from byte index `addr`, in index order. -/
def memRead (addr n : Nat) (s : State) : List Byte := (List.range n).map fun i => Memory.read s.buf (addr + i)

/-- `MemWrite(addr, 1, b)` of 00_scope.md R13. -/
def memWrite (addr : BitVec 6) (b : Byte) (s : State) : State := { s with buf := Memory.write s.buf addr.toNat b }

/-- `respond(v)` of 00_scope.md R13: the command's response (30_encoding.md R92), recorded after those before it (log 2). -/
def respond (r : Response) (s : State) : State := { s with responses := s.responses ++ [r] }

/-- 60_exceptions.md R230: the code recorded in `FAULT_CODE`. -/
def causeCode : FaultCause → BitVec 4
  | .illegalCommand => 1
  | .invalidState => 2
  | .inputTooLarge => 3

/-- Fault entry, 60_exceptions.md R240, with `opc` the bits 31:24 of the command word being executed: `PHASE`,
`FAULT_CODE` and `FAULT_OPC` are written, the response is `NONE`, and nothing else changes. -/
def raiseFault (cause : FaultCause) (opc : Byte) (s : State) : State :=
  respond .none { s with phase := .fault, faultCode := causeCode cause, faultOpc := opc }

/-- A word other than `RDSTAT` in phase FAULT: no effect, response `NONE` (60_exceptions.md R241, 30_encoding.md R99). -/
def ignoredInFault (s : State) : State := respond .none s

/-- An illegal word whose opcode byte is `opc`: ILLEGAL_COMMAND, whatever the phase but FAULT (60_exceptions.md R231, R238;
30_encoding.md R98, R99). -/
def illegalCommand (opc : Byte) (s : State) : State :=
  match s.phase with
  | .fault => ignoredInFault s
  | .accumulating | .finalized => raiseFault .illegalCommand opc s

/-- The hardware reset, 70_reset_and_hazards.md R260, which is also the one return from phase FAULT (60_exceptions.md
R242): every state element at its reset value, a new run begun. What the host has yet to present is the host's, and stays. -/
def hardwareReset (s : State) : State := { State.reset with input := s.input }

end Sys2Proof.Machine
end

