-- ==== Sys2Proof/Machine/Datapath.lean ====
section
/-! DEFINITION. Block processing (41_block_processing.md): the word operators (00_scope.md R12), the message-schedule
expander, the 64 rounds and the fold-back. Everything here is transient (10_state.md R39): a value local to `compress`. -/

namespace Sys2Proof.Machine

/-- R12: right rotation by a constant n, 0 < n < 32. -/
def rotr (x : Word) (n : Nat) : Word := (x >>> n) ||| (x <<< (32 - n))

/-- R143: σ0. -/
def smallSigma0 (x : Word) : Word := rotr x 7 ^^^ rotr x 18 ^^^ (x >>> 3)

/-- R143: σ1. -/
def smallSigma1 (x : Word) : Word := rotr x 17 ^^^ rotr x 19 ^^^ (x >>> 10)

/-- R144: Σ0. -/
def bigSigma0 (x : Word) : Word := rotr x 2 ^^^ rotr x 13 ^^^ rotr x 22

/-- R144: Σ1. -/
def bigSigma1 (x : Word) : Word := rotr x 6 ^^^ rotr x 11 ^^^ rotr x 25

/-- R145: choice. -/
def ch (x y z : Word) : Word := (x &&& y) ^^^ (~~~x &&& z)

/-- R145: majority. -/
def maj (x y z : Word) : Word := (x &&& y) ^^^ (x &&& z) ^^^ (y &&& z)

/-- 00_scope.md R14: four bytes as one word, the first in bits 31:24. -/
def be32 (b0 b1 b2 b3 : Byte) : Word := b0 ++ b1 ++ b2 ++ b3

/-- R141: schedule words 0..15 of a block, big-endian (20_memory.md R73 (a)). -/
def pack (blk : List Byte) : List Word :=
  (List.range 16).map fun i =>
    be32 (blk.getD (4 * i) 0) (blk.getD (4 * i + 1) 0) (blk.getD (4 * i + 2) 0) (blk.getD (4 * i + 3) 0)

/-- R142: the schedule word that follows the words `w`, with t their number. -/
def nextScheduleWord (w : List Word) : Word :=
  smallSigma1 (w.getD (w.length - 2) 0) + w.getD (w.length - 7) 0
    + smallSigma0 (w.getD (w.length - 15) 0) + w.getD (w.length - 16) 0

/-- R142: `n` more schedule words, in order of t. -/
def expand : Nat → List Word → List Word
  | 0, w => w
  | n + 1, w => expand n (w ++ [nextScheduleWord w])

/-- R141 and R142: `W[0..63]` of a block. Irreducible to the elaborator alone, as `compress` is. -/
@[irreducible] def schedule (blk : List Byte) : List Word := expand nExpanded (pack blk)

/-- R150: variable k of a, b, c, d, e, f, g, h0 from `H[k]`. -/
def initWork (h : Hash) : Work :=
  { a := h.w0, b := h.w1, c := h.w2, d := h.w3, e := h.w4, f := h.w5, g := h.w6, h0 := h.w7 }

/-- R153: `T1` of a round, from the working variables, `K[t]` and `W[t]`. -/
def temp1 (v : Work) (k w : Word) : Word := v.h0 + bigSigma1 v.e + ch v.e v.f v.g + k + w

/-- R153: `T2` of a round. -/
def temp2 (v : Work) : Word := bigSigma0 v.a + maj v.a v.b v.c

/-- R153: one round; all eight assignments take the values from before the round. -/
def compressRound (v : Work) (k w : Word) : Work :=
  { a := temp1 v k w + temp2 v, b := v.a, c := v.b, d := v.c, e := v.d + temp1 v k w, f := v.e, g := v.f, h0 := v.g }

/-- R153, R160: rounds 0 .. n−1 with the schedule words `w`. -/
def compressRounds (n : Nat) (w : List Word) (v : Work) : Work :=
  (List.range n).foldl (fun v t => compressRound v (roundConst t) (w.getD t 0)) v

/-- R161: the working variables added to the hash state, lane by lane. -/
def foldBack (h : Hash) (v : Work) : Hash :=
  { w0 := h.w0 + v.a, w1 := h.w1 + v.b, w2 := h.w2 + v.c, w3 := h.w3 + v.d,
    w4 := h.w4 + v.e, w5 := h.w5 + v.f, w6 := h.w6 + v.g, w7 := h.w7 + v.h0 }

/-- R160: `Compress(H, blk)`. Irreducible to the elaborator alone, so that no proof computes 64 rounds by accident. -/
@[irreducible] def compress (h : Hash) (blk : List Byte) : Hash :=
  foldBack h (compressRounds nRounds (schedule blk) (initWork h))

/-- 42_finalize.md R185: the 64-byte blocks of `p` compressed in order; bytes after the last whole block are not read. -/
def compressBlocks (h : Hash) (p : List Byte) : Hash :=
  (List.range (p.length / blockBytes)).foldl
    (fun h k => compress h ((p.drop (blockBytes * k)).take blockBytes)) h

end Sys2Proof.Machine
end

