-- ==== Sys2Proof/Machine/Padding.lean ====
section
/-! DEFINITION. Padding (42_finalize.md R181 to R184). -/

namespace Sys2Proof.Machine

/-- 00_scope.md R14: the eight bytes of a 64-bit value, most significant first (20_memory.md R73 (b)). -/
def be64bytes (v : BitVec 64) : List Byte :=
  [v.extractLsb' 56 8, v.extractLsb' 48 8, v.extractLsb' 40 8, v.extractLsb' 32 8,
   v.extractLsb' 24 8, v.extractLsb' 16 8, v.extractLsb' 8 8, v.extractLsb' 0 8]

/-- R183: `z = (55 − r) mod 64` zero bytes for a tail of r bytes, `z = 55 − r` for r ≤ 55 and `z = 119 − r` above. -/
def zeroFill (r : Nat) : Nat := if r ≤ 55 then 55 - r else 119 - r

/-- R182: `be64bytes(LEN × 8)`. -/
def lengthField (len : BitVec 64) : List Byte := be64bytes (len * 8)

/-- R184: `Pad(tail, LEN)`. -/
def pad (tail : List Byte) (len : BitVec 64) : List Byte :=
  tail ++ [0x80] ++ List.replicate (zeroFill tail.length) 0x00 ++ lengthField len

end Sys2Proof.Machine
end

