-- ==== Sys2Proof/Machine/Finalize.lean ====
section
/-! DEFINITION. `FINALIZE` (42_finalize.md). -/

namespace Sys2Proof.Machine

/-- R180: the tail padded in a transient block, the final block or blocks compressed, `BUF_LEN` cleared and phase
FINALIZED entered. `LEN` and the cells of `BUF` are read and left as they are. -/
def finishMessage (s : State) : State :=
  { s with
    hash := compressBlocks s.hash (pad (memRead 0 s.bufLen.toNat s) s.len)
    bufLen := 0
    phase := .finalized }

/-- R180: `FINALIZE`. -/
def execFinalize (s : State) : Host.Outcome State Fault Refusal :=
  match s.phase with
  | .fault => .next (ignoredInFault s)
  | .finalized => .next (raiseFault .invalidState (opcodeByte .finalize) s)
  | .accumulating => .next (respond .none (finishMessage s))

end Sys2Proof.Machine
end

