-- ==== Sys2Proof/Machine/Ingest.lean ====
section
/-! DEFINITION. `INGEST` (40_ingest.md). -/

namespace Sys2Proof.Machine

/-- R124: `BlockDone()`. The cells keep the old block's bytes. -/
def blockDone (s : State) : State := { s with hash := compress s.hash (memRead 0 blockBytes s), bufLen := 0 }

/-- R120: the byte stored at index `BUF_LEN`, with `BUF_LEN` and `LEN` advanced. -/
def storeByte (b : Byte) (s : State) : State :=
  { memWrite s.bufLen b s with bufLen := s.bufLen + 1, len := s.len + 1 }

/-- R120: the byte stored and, when the fill reaches 64 (which `BUF_LEN`, six bits wide, never shows: R33), the block
drained in the same step. -/
def appendByte (b : Byte) (s : State) : State :=
  if s.bufLen.toNat + 1 = blockBytes then blockDone (storeByte b s) else storeByte b s

/-- R120: `INGEST b`. -/
def execIngest (b : Byte) (s : State) : Host.Outcome State Fault Refusal :=
  match s.phase with
  | .fault => .next (ignoredInFault s)
  | .finalized => .next (raiseFault .invalidState (opcodeByte (.ingest b)) s)
  | .accumulating =>
    if s.len = maxLen then .next (raiseFault .inputTooLarge (opcodeByte (.ingest b)) s)
    else .next (respond .none (appendByte b s))

end Sys2Proof.Machine
end

