-- ==== Sys2Proof/Machine/Digest.lean ====
section
/-! DEFINITION. The read-only views of the hash state: word i (43_readout.md R210), the digest value
(42_finalize.md R190) and the serialized digest (R195, R196). -/

namespace Sys2Proof.Machine

/-- `[H[0], ..., H[7]]`. -/
def hashWords (h : Hash) : List Word := [h.w0, h.w1, h.w2, h.w3, h.w4, h.w5, h.w6, h.w7]

/-- `H[i]`. -/
def hashWord (h : Hash) (i : BitVec 3) : Word := (hashWords h).getD i.toNat 0

/-- R190: `DIGEST = H[0] || H[1] || ... || H[7]`. -/
def digestValue (h : Hash) : BitVec 256 := h.w0 ++ h.w1 ++ h.w2 ++ h.w3 ++ h.w4 ++ h.w5 ++ h.w6 ++ h.w7

/-- R195: the ASCII byte of a hexadecimal digit, lower case. -/
def hexDigit (n : BitVec 4) : Byte :=
  if n.toNat ≤ 9 then BitVec.ofNat 8 (0x30 + n.toNat) else BitVec.ofNat 8 (0x61 + (n.toNat - 10))

/-- R196: the eight digits of a word, digit k from bits 31−4k : 28−4k. -/
def hexWord (w : Word) : List Byte := (List.range 8).map fun k => hexDigit (w.extractLsb' (28 - 4 * k) 4)

/-- R196: `DIGEST_STR`, the prefix `0x30 0x78 0x20` and the digits of the eight words, `H[0]` first. -/
def digestStr (h : Hash) : List Byte := [0x30, 0x78, 0x20] ++ (hashWords h).flatMap hexWord

/-- R196: `DIGEST_STR[j]`, j in 0..66. -/
def digestChar (h : Hash) (j : Byte) : Byte := (digestStr h).getD j.toNat 0

end Sys2Proof.Machine
end

