-- ==== Sys2Proof/Machine/Flags.lean ====
section
/-! DEFINITION. The status register (10_state.md R38). It is a view, not storage. The engine has no other flag and no
condition code (R43): every carry is discarded, so there is no flag computation. -/

namespace Sys2Proof.Machine

/-- R38: `STATUS.PHASE`, bits 1:0. -/
def phaseBits : Phase → BitVec 2
  | .accumulating => 0
  | .finalized => 1
  | .fault => 2

/-- R38: `STATUS`, with bits 31:24, 15:14 and 3:2 hardwired to 0. -/
def statusWord (s : State) : Word :=
  0#8 ++ s.faultOpc ++ 0#2 ++ s.bufLen ++ s.faultCode ++ 0#2 ++ phaseBits s.phase

end Sys2Proof.Machine
end

