-- ==== Sys2Proof/Machine/Readout.lean ====
section
/-! DEFINITION. `RDWORD`, `RDCHAR` and `RDSTAT` (43_readout.md). -/

namespace Sys2Proof.Machine

/-- R210: `RDWORD i`. -/
def execRdword (i : BitVec 3) (s : State) : Host.Outcome State Fault Refusal :=
  match s.phase with
  | .fault => .next (ignoredInFault s)
  | .accumulating => .next (raiseFault .invalidState (opcodeByte (.rdword i)) s)
  | .finalized => .next (respond (.word (hashWord s.hash i)) s)

/-- R212: `RDCHAR j`. An index above 66, which no legal word holds, is what its word is: illegal (30_encoding.md R98 (e);
log 10). -/
def execRdchar (j : Byte) (s : State) : Host.Outcome State Fault Refusal :=
  if charIndexLegal j then
    match s.phase with
    | .fault => .next (ignoredInFault s)
    | .accumulating => .next (raiseFault .invalidState (opcodeByte (.rdchar j)) s)
    | .finalized => .next (respond (.byte (digestChar s.hash j)) s)
  else .next (illegalCommand (opcodeByte (.rdchar j)) s)

/-- R214: `RDSTAT`, legal in every phase (60_exceptions.md R241). -/
def execRdstat (s : State) : Host.Outcome State Fault Refusal := .next (respond (.word (statusWord s)) s)

end Sys2Proof.Machine
end

