-- ==== Sys2Proof/Machine/Dispatch.lean ====
section
/-! DEFINITION. One arm per command: the meaning of each (30_encoding.md R96, last column). -/

namespace Sys2Proof.Machine

def exec (i : Instr) (s : State) : Host.Outcome State Fault Refusal :=
  match i with
  | .ingest b => Sys2Proof.Machine.execIngest b s
  | .finalize => Sys2Proof.Machine.execFinalize s
  | .rdword k => Sys2Proof.Machine.execRdword k s
  | .rdchar j => Sys2Proof.Machine.execRdchar j s
  | .rdstat => Sys2Proof.Machine.execRdstat s

end Sys2Proof.Machine
end

