-- ==== Sys2Proof/Machine/Port.lean ====
section
/-! DEFINITION. The command port and the reset input (30_encoding.md R90, R91; 70_reset_and_hazards.md R260 to R262, R267). -/

namespace Sys2Proof.Machine

/-- R91: `Step(S, w)`: a legal word performs its rule, an illegal one raises ILLEGAL_COMMAND (or, in phase FAULT, does
nothing: 60_exceptions.md R241). Decoding comes first (R238). -/
def runWord (w : Word) (s : State) : Host.Outcome State Fault Refusal :=
  match decode w with
  | .ok i => exec i s
  | .error _ => .next (illegalCommand (opcOf w) s)

/-- R262: a reset received while the word `w` is in progress. The engine may discard the word or complete it first; the
state after is that of R260 either way, and no response is delivered (log 5). Here the word is discarded. -/
def resetInCommand (_w : Word) (s : State) : State := hardwareReset s

/-- One thing the host does (R267), taken by the engine as one atomic step (20_memory.md R76). -/
def takeEvent (e : HostEvent) (s : State) : Host.Outcome State Fault Refusal :=
  match e with
  | .command w => runWord w s
  | .reset => .next (hardwareReset s)
  | .resetDuring w => .next (resetInCommand w s)

/-- The engine takes what the host presented first (20_memory.md R80). With nothing presented it waits with its state held
(60_exceptions.md R254; log 4). -/
def portStep (s : State) : Host.Outcome State Fault Refusal :=
  match s.input with
  | [] => .next s
  | e :: rest => takeEvent e { s with input := rest }

/-- The host presents the word `w`, before anything else it has yet to present. -/
def presentWord (w : Word) (s : State) : State := { s with input := .command w :: s.input }

end Sys2Proof.Machine
end

