-- ==== Sys2Proof/Machine/Engines.lean ====
section
/-! DEFINITION. Several engines (60_exceptions.md R250): each has its own state, command port and reset, and they share
only the constant tables. The open parameter `ninstances` (00_scope.md R9) is the length of the list (log 14). -/

namespace Sys2Proof.Machine

/-- One step of engine k of several; there is nothing to step when there is no engine k. -/
def stepEngine (k : Nat) (es : List State) : Host.Outcome (List State) Fault Refusal :=
  match es[k]? with
  | none => .next es
  | some s =>
    match step s with
    | .next s' => .next (es.set k s')
    | .fault r => .fault r
    | .refused r => .refused r

end Sys2Proof.Machine
end

