-- ==== Sys2Proof/Machine/Realisation.lean ====
section
/-! DEFINITION. The permitted round-level realisation of block processing (41_block_processing.md R147, R163): one round
per internal cycle, with a sliding window of the 16 most recent schedule words. The rule of record is `compress`; this one
is stated equal to it. No step of the machine uses it. -/

namespace Sys2Proof.Machine

/-- The registers of the realisation: the round index t, the shift register `win[0..15]` (oldest word first) and the
working variables. -/
structure RoundUnit where
  t : Nat
  win : List Word
  work : Work
deriving DecidableEq, Repr

/-- R147: `new := s1(win[14]) + win[9] + s0(win[1]) + win[0]`. -/
def windowWord (win : List Word) : Word :=
  smallSigma1 (win.getD 14 0) + win.getD 9 0 + smallSigma0 (win.getD 1 0) + win.getD 0 0

/-- R147: the shift, `win[k] <- win[k+1]` and `win[15] <- new`. -/
def windowShift (win : List Word) (new : Word) : List Word := win.drop 1 ++ [new]

/-- R147: the schedule word the unit uses at its round: word t of the loaded block for t < 16, then the new word. -/
def unitWord (u : RoundUnit) : Word := if u.t < 16 then u.win.getD u.t 0 else windowWord u.win

/-- R163: one internal cycle, one round. -/
def unitCycle (u : RoundUnit) : RoundUnit :=
  { t := u.t + 1
    win := if u.t < 16 then u.win else windowShift u.win (windowWord u.win)
    work := compressRound u.work (roundConst u.t) (unitWord u) }

/-- `n` internal cycles. -/
def unitCycles : Nat → RoundUnit → RoundUnit
  | 0, u => u
  | n + 1, u => unitCycles n (unitCycle u)

/-- R147, R150: the unit loaded with a block and the hash state. -/
def unitLoad (h : Hash) (blk : List Byte) : RoundUnit := { t := 0, win := pack blk, work := initWork h }

/-- R163: block processing by the unit: load, 64 cycles, fold back. -/
def compressByUnit (h : Hash) (blk : List Byte) : Hash := foldBack h (unitCycles nRounds (unitLoad h blk)).work

end Sys2Proof.Machine
end

