-- ==== Sys2Proof/Machine/Pseudo.lean ====
section
/-! DEFINITION. The pseudo-commands (30_encoding.md R103) and the software calls they stand for (40_ingest.md R122,
43_readout.md R216). A string is the list of its ASCII bytes. -/

namespace Sys2Proof.Machine

/-- R103, R122: `INGESTS s` and `INGESTB b0, b1, ..., bn`: the call `ingest(bs)`, one `INGEST` per byte in order. -/
def ingestCall (bs : List Byte) : List Instr := bs.map Instr.ingest

/-- R103: `RDDIGEST`, `RDCHAR 0` to `RDCHAR 66`. -/
def rdDigest : List Instr := (List.range 67).map fun j => .rdchar (BitVec.ofNat 8 j)

/-- R103: `RDHASH`, `RDWORD 0` to `RDWORD 7`. -/
def rdHash : List Instr := (List.range 8).map fun i => .rdword (BitVec.ofNat 3 i)

/-- R216: the call `finalize()` returning the digest. -/
def finalizeCall : List Instr := .finalize :: rdDigest

/-- R103: `HASH s`: `INGESTS s`, `FINALIZE`, `RDDIGEST`. -/
def hashCall (bs : List Byte) : List Instr := ingestCall bs ++ finalizeCall

/-- The commands as what the host presents: their words, in issue order (20_memory.md R80). -/
def commandEvents (is : List Instr) : List HostEvent := is.map fun i => .command (encode i)

/-- R216: the call `hash(bs)`: reset, then `HASH bs`. -/
def hashEvents (bs : List Byte) : List HostEvent := .reset :: commandEvents (hashCall bs)

end Sys2Proof.Machine
end

