-- ==== Sys2Proof/Safety.lean ====
section
/-! DEFINITION. What the claims speak of: the end of a run (70_reset_and_hazards.md R273), the invariants of
10_state.md R45, the message a state has taken in (40_ingest.md R121) and its digest (42_finalize.md R186). -/

namespace Sys2Proof.Machine

/-- R273: a run that ends in this state ends successfully. A state in phase FAULT never does (60_exceptions.md R243). -/
def Successful (s : State) : Prop := s.phase = .finalized

/-- 10_state.md R45 (I1, by the width of `bufLen`; the first part of I2 and of I4; I5; I6), with `FAULT_CODE` one of the
four codes of R37 and the buffer in its canonical form. -/
abbrev Inv (s : State) : Prop :=
  Memory.wf s.buf = true ∧ s.len.toNat ≤ 2 ^ 61 - 1 ∧ s.faultCode.toNat ≤ 3 ∧
    ((s.faultCode = 0 ∧ s.faultOpc = 0) ↔ s.phase ≠ .fault) ∧
    (s.phase = .accumulating → s.bufLen.toNat = s.len.toNat % 64) ∧ (s.phase = .finalized → s.bufLen = 0)

/-- 42_finalize.md R186: the padded message, with `z = (55 − L) mod 64`. -/
def paddedMessage (m : List Byte) : List Byte :=
  m ++ [0x80] ++ List.replicate ((119 - m.length % 64) % 64) 0x00 ++ be64bytes (BitVec.ofNat 64 (8 * m.length))

/-- R186: the digest of a message: its padded blocks compressed in order, starting from `IV`. -/
def messageDigest (m : List Byte) : Hash := compressBlocks initialHash (paddedMessage m)

/-- 10_state.md R45 (I2, I3, I4): the state has taken in the message `m` (R121) and no more. In phase FAULT the rules
keep every register, and only the length is said here. -/
def Represents (m : List Byte) (s : State) : Prop :=
  s.len.toNat = m.length ∧ m.length ≤ 2 ^ 61 - 1 ∧
    match s.phase with
    | .accumulating =>
      s.bufLen.toNat = m.length % 64 ∧ memRead 0 s.bufLen.toNat s = m.drop (64 * (m.length / 64)) ∧
        s.hash = compressBlocks initialHash m
    | .finalized => s.bufLen = 0 ∧ s.hash = messageDigest m
    | .fault => True

/-- 40_ingest.md R121: the message after one step of a state that has taken in `m`: `INGEST b` that completes without
fault appends `b`, a reset empties it, and nothing else changes it. -/
def messageAfter (m : List Byte) (s : State) : List Byte :=
  match s.input with
  | [] => m
  | .reset :: _ => []
  | .resetDuring _ :: _ => []
  | .command w :: _ =>
    match decode w with
    | .ok (.ingest b) => if s.phase = .accumulating ∧ s.len ≠ maxLen then m ++ [b] else m
    | _ => m

/-- 10_state.md R32, R47: two states that differ in nothing but cells of the buffer at index `BUF_LEN` and above. -/
def AgreeOnValid (s t : State) : Prop :=
  t = { s with buf := t.buf } ∧ ∀ a, a < s.bufLen.toNat → Memory.read t.buf a = Memory.read s.buf a

/-- The result of the host presenting these events, in order, to an engine in the state `s` that has nothing else waiting. -/
def runEvents (es : List HostEvent) (s : State) : Host.Outcome State Fault Refusal :=
  Host.Core.run core es.length { s with input := es }

/-- The engine executes the command word `w`, presented next, from `s` to `s'`. -/
def Executes (w : Word) (s s' : State) : Prop := s.input.head? = some (.command w) ∧ step s = .next s'

/-- 40_ingest.md R122: the software calls `ingest(bs)` for each `bs` of a list, one after the other. -/
def ingestCalls : List (List Byte) → State → Host.Outcome State Fault Refusal
  | [], s => .next s
  | bs :: more, s =>
    match runEvents (commandEvents (ingestCall bs)) s with
    | .next t => ingestCalls more t
    | .fault r => .fault r
    | .refused r => .refused r

/-- The value of a lower-case hexadecimal digit of `DIGEST_STR` (42_finalize.md R195, read backwards). -/
def hexValue (c : Byte) : Nat := if c.toNat ≤ 0x39 then c.toNat - 0x30 else c.toNat - 0x61 + 10

/-- The number that hexadecimal digits write, most significant digit first. -/
def hexNumber (cs : List Byte) : Nat := cs.foldl (fun n c => 16 * n + hexValue c) 0

end Sys2Proof.Machine
end

