-- ==== Sys2Proof/Certificates/Slice0/Obligations.lean ====
section
/-! DEFINITION. The statements for the provers, from the numbered rules of spec/. -/

open Sys2Proof Sys2Proof.Machine

/-! ## Encoding (30_encoding.md) -/

/-- R96, R100: words written out from the table's match values decode to their commands, and R100's illegal words do not
decode. -/
def Obligations.WordsDecodeAsTheTableSays : Prop :=
  decode 0x01000061 = .ok (.ingest 0x61) ∧ decode 0x01000000 = .ok (.ingest 0x00) ∧
  decode 0x010000FF = .ok (.ingest 0xFF) ∧ decode 0x02000000 = .ok .finalize ∧
  decode 0x03000000 = .ok (.rdword 0) ∧ decode 0x03000007 = .ok (.rdword 7) ∧
  decode 0x04000000 = .ok (.rdchar 0) ∧ decode 0x04000042 = .ok (.rdchar 66) ∧ decode 0x05000000 = .ok .rdstat ∧
  decode 0x02000001 = .error .finalizeArg ∧ decode 0x03000008 = .error .rdwordIndex ∧
  decode 0x04000043 = .error .rdcharIndex ∧ decode 0x01000100 = .error .reservedField ∧
  decode 0x06000000 = .error .unassignedOpcode ∧ decode 0x00000000 = .error .unassignedOpcode ∧
  decode 0xFFFFFFFF = .error .reservedField ∧ decode 0x05000001 = .error .rdstatArg

/-- R93, R95, R96, R97: decoding the word of a well-formed command gives the command back, at every operand. -/
def Obligations.DecodeOfEncodeIsTheCommand : Prop := ∀ i : Instr, i.WellFormed → decode (encode i) = .ok i

/-- R96: a word selects a row of the opcode table, by the row's mask, match value and further constraint, exactly when it
decodes to that row's command. -/
def Obligations.WordsSelectTheirTableRow : Prop :=
  ∀ w : Word,
    (w &&& 0xFFFFFF00 = 0x01000000 ↔ ∃ b, decode w = .ok (.ingest b)) ∧
    (w &&& 0xFFFFFFFF = 0x02000000 ↔ decode w = .ok .finalize) ∧
    (w &&& 0xFFFFFFF8 = 0x03000000 ↔ ∃ i, decode w = .ok (.rdword i)) ∧
    ((w &&& 0xFFFFFF80 = 0x04000000 ∧ (w.extractLsb' 0 8).toNat ≤ 66) ↔ ∃ j, decode w = .ok (.rdchar j)) ∧
    (w &&& 0xFFFFFFFF = 0x05000000 ↔ decode w = .ok .rdstat)

/-- R97: a word that decodes is the word of the well-formed command it decodes to, so each command has one word. -/
def Obligations.DecodedWordIsTheCommandsWord : Prop :=
  ∀ (w : Word) (i : Instr), decode w = .ok i → encode i = w ∧ i.WellFormed

/-- R102: the legal words are exactly the 333 listed by family, each listed once. -/
def Obligations.ExactlyTheListedWordsAreLegal : Prop :=
  legalWords.length = 333 ∧ legalWords.Nodup ∧ ∀ w : Word, (∃ i, decode w = .ok i) ↔ w ∈ legalWords

/-- R98: the illegal set is exactly (a) to (e), and each illegal word raises ILLEGAL_COMMAND in phases ACCUMULATING and
FINALIZED; the all-zero and the all-ones word are illegal. -/
def Obligations.IllegalWordsAreExactlyTheClasses : Prop :=
  (∀ w : Word, (∃ e, decode w = .error e) ↔
    (w.extractLsb' 8 16 ≠ 0 ∨
      (w.extractLsb' 24 8 = 0x00 ∨ 0x06 ≤ (w.extractLsb' 24 8).toNat) ∨
      ((w.extractLsb' 24 8 = 0x02 ∨ w.extractLsb' 24 8 = 0x05) ∧ w.extractLsb' 0 8 ≠ 0) ∨
      (w.extractLsb' 24 8 = 0x03 ∧ w.extractLsb' 3 5 ≠ 0) ∨
      (w.extractLsb' 24 8 = 0x04 ∧ 67 ≤ (w.extractLsb' 0 8).toNat))) ∧
  (∀ (w : Word) (e : Illegal) (s s' : State), decode w = .error e → s.phase ≠ .fault → Executes w s s' →
    s'.phase = .fault ∧ s'.faultCode = 1) ∧
  (∃ e, decode 0x00000000 = .error e) ∧ ∃ e, decode 0xFFFFFFFF = .error e

/-! ## The step and the command port (30_encoding.md R91, R92; 20_memory.md R80) -/

/-- R91: when the word the host presents next decodes, the step is `exec` of that command at the state with the word
taken. -/
def Obligations.StepExecutesTheDecodedCommand : Prop :=
  ∀ (s : State) (w : Word) (rest : List HostEvent) (i : Instr), s.input = .command w :: rest → decode w = .ok i →
    step s = exec i { s with input := rest }

/-- R231, R99: an illegal word raises ILLEGAL_COMMAND with its own opcode byte recorded, and has no effect in phase FAULT;
it responds NONE either way. -/
def Obligations.IllegalWordFaultsOrIsIgnored : Prop :=
  ∀ (s : State) (w : Word) (rest : List HostEvent) (e : Illegal), s.input = .command w :: rest → decode w = .error e →
    step s = .next
      (if s.phase = .fault then { s with input := rest, responses := s.responses ++ [.none] }
       else { s with input := rest, responses := s.responses ++ [.none], phase := .fault, faultCode := 1,
                     faultOpc := w.extractLsb' 24 8 })

/-- R91, R234, R272: every state, whatever the host presents, steps to a next state; the engine takes what was presented
first and leaves the rest. -/
def Obligations.EveryStepCompletes : Prop := ∀ s : State, ∃ s', step s = .next s' ∧ s'.input = s.input.tail

/-- R92: a command word gets exactly one response, after those already given, of the kind the rule names. -/
def Obligations.EachCommandGetsOneResponse : Prop :=
  ∀ (w : Word) (s s' : State), Executes w s s' →
    ∃ r, s'.responses = s.responses ++ [r] ∧
      match decode w with
      | .ok .rdstat => ∃ v, r = .word v
      | .ok (.rdword _) => if s.phase = .finalized then ∃ v, r = .word v else r = .none
      | .ok (.rdchar _) => if s.phase = .finalized then ∃ v, r = .byte v else r = .none
      | _ => r = .none

/-- R254 and log 4 (the model's choice): with nothing presented the engine waits with its state held. -/
def Obligations.IdleEngineHoldsItsState : Prop := ∀ s : State, s.input = [] → step s = .next s

/-! ## The commands -/

/-- R120, R124, R233: `INGEST b`, whose word is 0x010000 and `b`, outside phase FAULT, every case, with everything it
leaves unchanged. On block completion the block is the 63 bytes before it and `b`. The last clause is R120's example. -/
def Obligations.IngestAppendsOneByte : Prop :=
  (∀ b : Byte, decode (0x010000#24 ++ b) = .ok (.ingest b)) ∧
  (∀ (b : Byte) (s : State),
    (s.phase = .accumulating → s.len ≠ BitVec.ofNat 64 (2 ^ 61 - 1) → s.bufLen ≠ 63 →
      exec (.ingest b) s = .next
        { s with buf := Memory.write s.buf s.bufLen.toNat b, bufLen := s.bufLen + 1, len := s.len + 1,
                 responses := s.responses ++ [.none] }) ∧
    (s.phase = .accumulating → s.len ≠ BitVec.ofNat 64 (2 ^ 61 - 1) → s.bufLen = 63 → Memory.wf s.buf = true →
      exec (.ingest b) s = .next
        { s with buf := Memory.write s.buf 63 b, bufLen := 0, len := s.len + 1,
                 hash := compress s.hash (memRead 0 63 s ++ [b]), responses := s.responses ++ [.none] }) ∧
    (s.phase = .accumulating → s.len = BitVec.ofNat 64 (2 ^ 61 - 1) →
      exec (.ingest b) s = .next
        { s with phase := .fault, faultCode := 3, faultOpc := 0x01, responses := s.responses ++ [.none] }) ∧
    (s.phase = .finalized →
      exec (.ingest b) s = .next
        { s with phase := .fault, faultCode := 2, faultOpc := 0x01, responses := s.responses ++ [.none] })) ∧
  ∃ t, exec (.ingest 0x61) State.reset = .next t ∧ Memory.read t.buf 0 = 0x61 ∧ t.bufLen = 1 ∧ t.len = 1 ∧
    t.hash = initialHash ∧ statusWord t = 0x00000100

/-- 20_memory.md R70: a command writes no cell of the buffer but the one `INGEST` stores at, index `BUF_LEN`; every other
cell reads as before, and so does every cell where the command is another or faults. -/
def Obligations.OnlyIngestWritesTheBuffer : Prop :=
  ∀ (w : Word) (s s' : State), Executes w s s' →
    (∀ b, decode w = .ok (.ingest b) → s'.phase ≠ .fault →
      (Memory.wf s.buf = true → Memory.read s'.buf s.bufLen.toNat = b) ∧
        ∀ a, a ≠ s.bufLen.toNat → Memory.read s'.buf a = Memory.read s.buf a) ∧
    (((∀ b, decode w ≠ .ok (.ingest b)) ∨ s'.phase = .fault) → ∀ a, Memory.read s'.buf a = Memory.read s.buf a)

/-- R180, R185: `FINALIZE`, the word 0x02000000, outside phase FAULT, every case, with everything it leaves unchanged: one
final block for a fill of at most 55, two for a larger one. The last clause is R180's example. -/
def Obligations.FinalizeCompressesThePaddedTail : Prop :=
  decode 0x02000000 = .ok .finalize ∧
  (∀ s : State,
    (s.phase = .accumulating →
      exec .finalize s = .next
        { s with hash :=
                  (if s.bufLen.toNat ≤ 55 then compress s.hash (pad (memRead 0 s.bufLen.toNat s) s.len)
                   else compress (compress s.hash ((pad (memRead 0 s.bufLen.toNat s) s.len).take 64))
                          ((pad (memRead 0 s.bufLen.toNat s) s.len).drop 64)),
                 bufLen := 0, phase := .finalized, responses := s.responses ++ [.none] }) ∧
    (s.phase = .finalized →
      exec .finalize s = .next
        { s with phase := .fault, faultCode := 2, faultOpc := 0x02, responses := s.responses ++ [.none] })) ∧
  ∃ t, exec .finalize State.reset = .next t ∧ t.hash.w0 = 0xE3B0C442 ∧ t.phase = .finalized ∧
    statusWord t = 0x00000001

/-- R210: `RDWORD i`, whose word is 0x03000000 plus i, outside phase FAULT: the word in FINALIZED, no state written;
INVALID_STATE in ACCUMULATING. The last clause is R210's example. -/
def Obligations.RdwordReadsOneHashWord : Prop :=
  (∀ (i : BitVec 3) (s : State),
    decode (0x600000#29 ++ i) = .ok (.rdword i) ∧
    (s.phase = .finalized → ∃ v : Word,
      exec (.rdword i) s = .next { s with responses := s.responses ++ [.word v] } ∧
      v = (if i = 0 then s.hash.w0 else if i = 1 then s.hash.w1 else if i = 2 then s.hash.w2
           else if i = 3 then s.hash.w3 else if i = 4 then s.hash.w4 else if i = 5 then s.hash.w5
           else if i = 6 then s.hash.w6 else s.hash.w7)) ∧
    (s.phase = .accumulating →
      exec (.rdword i) s = .next
        { s with phase := .fault, faultCode := 2, faultOpc := 0x03, responses := s.responses ++ [.none] })) ∧
  ∀ s : State, s.phase = .finalized → s.hash = messageDigest [0x61, 0x62, 0x63] →
    exec (.rdword 0) s = .next { s with responses := s.responses ++ [.word 0xBA7816BF] } ∧
    exec (.rdword 7) s = .next { s with responses := s.responses ++ [.word 0xF20015AD] }

/-- R212, R196, R195: `RDCHAR j`, j in 0..66, whose word is 0x040000 and `j`, outside phase FAULT: in FINALIZED byte j of
the digest string, which is the prefix 0x30 0x78 0x20 and then the lower-case digit k of word i for j = 3 + 8i + k, no
state written; INVALID_STATE in ACCUMULATING. The last clause is R212's example. -/
def Obligations.RdcharReadsOneDigestByte : Prop :=
  (∀ (j : Byte) (s : State), j.toNat ≤ 66 →
    decode (0x040000#24 ++ j) = .ok (.rdchar j) ∧
    (s.phase = .finalized → ∃ v : Byte,
      exec (.rdchar j) s = .next { s with responses := s.responses ++ [.byte v] } ∧
      (digestStr s.hash)[j.toNat]? = some v ∧
      (j = 0 → v = 0x30) ∧ (j = 1 → v = 0x78) ∧ (j = 2 → v = 0x20) ∧
      ∀ (i : BitVec 3) (k : Nat), k < 8 → j.toNat = 3 + 8 * i.toNat + k →
        v.toNat = (if ((hashWord s.hash i).extractLsb' (28 - 4 * k) 4).toNat ≤ 9 then
            0x30 + ((hashWord s.hash i).extractLsb' (28 - 4 * k) 4).toNat
          else 0x61 + (((hashWord s.hash i).extractLsb' (28 - 4 * k) 4).toNat - 10))) ∧
    (s.phase = .accumulating →
      exec (.rdchar j) s = .next
        { s with phase := .fault, faultCode := 2, faultOpc := 0x04, responses := s.responses ++ [.none] })) ∧
  ∀ s : State, s.phase = .finalized → s.hash = messageDigest [] →
    exec (.rdchar 3) s = .next { s with responses := s.responses ++ [.byte 0x65] } ∧
    exec (.rdchar 66) s = .next { s with responses := s.responses ++ [.byte 0x35] }

/-- R214, R38: `RDSTAT`, the word 0x05000000, in every phase: the word whose fields are those of R38, no state written;
PHASE is never 3, and where the invariant of R45 holds FAULT_CODE is never 4..15 and BUF_LEN is `LEN mod 64` in
ACCUMULATING and 0 in FINALIZED. The last clause is R214's example. -/
def Obligations.RdstatReadsTheStatus : Prop :=
  decode 0x05000000 = .ok .rdstat ∧
  (∀ s : State, ∃ v : Word,
    exec .rdstat s = .next { s with responses := s.responses ++ [.word v] } ∧
    v.extractLsb' 0 2 = (if s.phase = .accumulating then 0#2 else if s.phase = .finalized then 1#2 else 2#2) ∧
    v.extractLsb' 2 2 = 0 ∧ v.extractLsb' 4 4 = s.faultCode ∧ v.extractLsb' 8 6 = s.bufLen ∧
    v.extractLsb' 14 2 = 0 ∧ v.extractLsb' 16 8 = s.faultOpc ∧ v.extractLsb' 24 8 = 0 ∧
    v.extractLsb' 0 2 ≠ 3#2 ∧ (s = State.reset → v = 0x00000000) ∧
    (Inv s → (v.extractLsb' 4 4).toNat ≤ 3 ∧
      (s.phase = .accumulating → (v.extractLsb' 8 6).toNat = s.len.toNat % 64) ∧
      (s.phase = .finalized → v.extractLsb' 8 6 = 0))) ∧
  ∀ a b c : Byte, ∃ t : State,
    runEvents (commandEvents [.rdstat, .ingest a, .ingest b, .ingest c, .rdstat, .finalize, .rdstat, .finalize, .rdstat])
      State.reset = .next t ∧
    t.responses = [.word 0x00000000, .none, .none, .none, .word 0x00000300, .none, .word 0x00000001, .none,
      .word 0x00020022]

/-- R77: a read-out that does not fault changes no state but the word taken and the response given. -/
def Obligations.ReadoutChangesNoState : Prop :=
  ∀ (w : Word) (s s' : State), Executes w s s' → s'.phase ≠ .fault →
    (decode w = .ok .rdstat ∨ (∃ i, decode w = .ok (.rdword i)) ∨ ∃ j, decode w = .ok (.rdchar j)) →
    s' = { s with input := s'.input, responses := s'.responses }

/-! ## Faults (60_exceptions.md) -/

/-- R238, R232: which fault a command takes, by R238's order: none in phase FAULT, an illegal word code 1, a command the
phase does not allow code 2 (R232), `INGEST` at 2^61 − 1 bytes code 3, and no fault otherwise; a fault records the word's
bits 31:24. -/
def Obligations.AtMostOneFaultInTheRulesOrder : Prop :=
  ∀ (w : Word) (s s' : State), Executes w s s' →
    (s.phase = .fault → s'.phase = .fault ∧ s'.faultCode = s.faultCode ∧ s'.faultOpc = s.faultOpc) ∧
    (s.phase ≠ .fault → match decode w with
    | .error _ => s'.phase = .fault ∧ s'.faultCode = 1 ∧ s'.faultOpc = w.extractLsb' 24 8
    | .ok i =>
      if (s.phase = .finalized ∧ ((∃ b, i = .ingest b) ∨ i = .finalize)) ∨
          (s.phase = .accumulating ∧ ((∃ k, i = .rdword k) ∨ ∃ j, i = .rdchar j)) then
        s'.phase = .fault ∧ s'.faultCode = 2 ∧ s'.faultOpc = w.extractLsb' 24 8
      else if (∃ b, i = .ingest b) ∧ s.len = BitVec.ofNat 64 (2 ^ 61 - 1) then
        s'.phase = .fault ∧ s'.faultCode = 3 ∧ s'.faultOpc = w.extractLsb' 24 8
      else s'.phase ≠ .fault ∧ s'.faultCode = s.faultCode)

/-- R240: any command that enters phase FAULT writes `PHASE`, `FAULT_CODE` and `FAULT_OPC <- w[31:24]`, responds NONE, and
changes nothing else: `H`, `BUF`, `BUF_LEN` and `LEN` keep their values. -/
def Obligations.FaultEntryIsPrecise : Prop :=
  ∀ (w : Word) (s s' : State), Executes w s s' → s.phase ≠ .fault → s'.phase = .fault →
    (s'.faultCode = 1 ∨ s'.faultCode = 2 ∨ s'.faultCode = 3) ∧
    s' = { s with input := s.input.tail, phase := .fault, faultCode := s'.faultCode,
                  faultOpc := w.extractLsb' 24 8, responses := s.responses ++ [.none] }

/-- R241: in phase FAULT the word 0x05000000 responds the status and every other word responds NONE; nothing else changes. -/
def Obligations.FaultPhaseExecutesOnlyRdstat : Prop :=
  ∀ (w : Word) (s s' : State), Executes w s s' → s.phase = .fault →
    s' = { s with input := s.input.tail,
                  responses := s.responses ++ [if w = 0x05000000 then .word (statusWord s) else .none] }

/-- R36: the phase transitions a command word can make, and by which commands; the reset input leads to ACCUMULATING from
any phase, and with nothing presented the phase stays. -/
def Obligations.PhaseTransitionsAreTheRules : Prop :=
  State.reset.phase = .accumulating ∧
  (∀ s s' : State, step s = .next s' →
    ((s.input.head? = some .reset ∨ ∃ w, s.input.head? = some (.resetDuring w)) → s'.phase = .accumulating) ∧
    (s.input = [] → s'.phase = s.phase)) ∧
  ∀ (w : Word) (s s' : State), Executes w s s' →
    match s.phase, s'.phase with
    | .accumulating, .accumulating => (∃ b, decode w = .ok (.ingest b)) ∨ decode w = .ok .rdstat
    | .accumulating, .finalized => decode w = .ok .finalize
    | .finalized, .finalized =>
      (∃ i, decode w = .ok (.rdword i)) ∨ (∃ j, decode w = .ok (.rdchar j)) ∨ decode w = .ok .rdstat
    | .finalized, .accumulating => False
    | .fault, .accumulating => False
    | .fault, .finalized => False
    | _, .fault => True

/-- R243, R37: once a fault is taken, no sequence of command words changes the phase, the fault record or the digest, and
the end of the sequence is no successful one. -/
def Obligations.FirstFaultStaysToTheEndOfTheRun : Prop :=
  ∀ (ws : List Word) (s t : State), s.phase = .fault → runEvents (ws.map .command) s = .next t →
    ¬ Successful t ∧ t.phase = .fault ∧ t.faultCode = s.faultCode ∧ t.faultOpc = s.faultOpc ∧ t.hash = s.hash ∧
      t.bufLen = s.bufLen ∧ t.len = s.len ∧ t.buf = s.buf

/-! ## Reset (70_reset_and_hazards.md) -/

/-- R46: the state after reset holds the values the spec gives, and STATUS reads 0. -/
def Obligations.ResetStateHoldsTheRulesValues : Prop :=
  State.reset.hash = ⟨0x6a09e667, 0xbb67ae85, 0x3c6ef372, 0xa54ff53a, 0x510e527f, 0x9b05688c, 0x1f83d9ab, 0x5be0cd19⟩ ∧
  State.reset.bufLen = 0 ∧ State.reset.len = 0 ∧ State.reset.phase = .accumulating ∧ State.reset.faultCode = 0 ∧
  State.reset.faultOpc = 0 ∧ statusWord State.reset = 0x00000000

/-- R260: the reset input, in any phase, sets every register to its reset value. -/
def Obligations.ResetInputWorksInEveryPhase : Prop :=
  ∀ (s : State) (rest : List HostEvent), s.input = .reset :: rest →
    ∃ s', step s = .next s' ∧ s'.hash = initialHash ∧ s'.bufLen = 0 ∧ s'.len = 0 ∧ s'.phase = .accumulating ∧
      s'.faultCode = 0 ∧ s'.faultOpc = 0 ∧ s'.input = rest

/-- R262, and the model's choices of log 5 (the word is discarded), log 3 (a reset leaves every cell of the buffer unwritten)
and log 2 (it empties the record of responses): a reset during a command gives the state that the command followed by a
reset gives, with no response of it delivered. That the cells and the record are equal too rests on log 3 and log 2: the
rules leave the cells unspecified after a reset. -/
def Obligations.ResetDuringACommandIsAReset : Prop :=
  ∀ (s t : State) (w : Word) (rest : List HostEvent), s.input = .resetDuring w :: rest →
    step { s with input := .command w :: .reset :: rest } = .next t →
    step s = step t ∧ ∃ s', step s = .next s' ∧ s'.responses = []

/-- R218, R260, and the model's choices of log 3 (a reset leaves every cell of the buffer unwritten) and log 2 (it empties
the record of responses): two engines in any two states, each reset and then given the same events, reach the same state,
responses included. That the cells and the record are equal too rests on log 3 and log 2: the rules leave the cells
unspecified after a reset. -/
def Obligations.ResetEnginesAreIndistinguishable : Prop :=
  ∀ (s t : State) (es : List HostEvent), runEvents (.reset :: es) s = runEvents (.reset :: es) t

/-! ## Block processing (41_block_processing.md) -/

/-- R143, R144, per bit: each function is the exclusive-or of the bits its rotations (and, for σ0 and σ1, its logical
shift, zeros entering at the top) bring to that place. -/
def Obligations.SigmaFunctionsPerBit : Prop :=
  ∀ (x : Word) (i : Nat), i < 32 →
    ((smallSigma0 x).getLsbD i =
      ((x.getLsbD ((i + 7) % 32) ^^ x.getLsbD ((i + 18) % 32)) ^^ (decide (i + 3 < 32) && x.getLsbD (i + 3)))) ∧
    ((smallSigma1 x).getLsbD i =
      ((x.getLsbD ((i + 17) % 32) ^^ x.getLsbD ((i + 19) % 32)) ^^ (decide (i + 10 < 32) && x.getLsbD (i + 10)))) ∧
    ((bigSigma0 x).getLsbD i =
      ((x.getLsbD ((i + 2) % 32) ^^ x.getLsbD ((i + 13) % 32)) ^^ x.getLsbD ((i + 22) % 32))) ∧
    ((bigSigma1 x).getLsbD i =
      ((x.getLsbD ((i + 6) % 32) ^^ x.getLsbD ((i + 11) % 32)) ^^ x.getLsbD ((i + 25) % 32)))

/-- R145, per bit: `Ch` returns y's bit where x's is 1 and z's where it is 0; `Maj` the value at least two of the three
bits hold. -/
def Obligations.ChoiceAndMajorityPerBit : Prop :=
  ∀ (x y z : Word) (i : Nat), i < 32 →
    ((ch x y z).getLsbD i = if x.getLsbD i then y.getLsbD i else z.getLsbD i) ∧
    ((maj x y z).getLsbD i =
      decide (2 ≤ (x.getLsbD i).toNat + (y.getLsbD i).toNat + (z.getLsbD i).toNat))

/-- R141, R142: the schedule of a block has 64 words, the first 16 the block's bytes in big-endian groups of four, each
later one the recurrence over earlier words. -/
def Obligations.ScheduleFollowsTheRecurrence : Prop :=
  ∀ blk : List Byte, (schedule blk).length = 64 ∧
    (∀ i, i < 16 → (schedule blk).getD i 0 =
      blk.getD (4 * i) 0 ++ blk.getD (4 * i + 1) 0 ++ blk.getD (4 * i + 2) 0 ++ blk.getD (4 * i + 3) 0) ∧
    ∀ t, 16 ≤ t → t < 64 → (schedule blk).getD t 0 =
      smallSigma1 ((schedule blk).getD (t - 2) 0) + (schedule blk).getD (t - 7) 0
        + smallSigma0 ((schedule blk).getD (t - 15) 0) + (schedule blk).getD (t - 16) 0

/-- R153, R154, R162: one round: six of the eight outputs are copies, and the other two are sums of the values from before
the round, reduced once modulo 2^32. -/
def Obligations.RoundCopiesSixAndComputesTwo : Prop :=
  ∀ (v : Work) (k w : Word),
    (compressRound v k w).b = v.a ∧ (compressRound v k w).c = v.b ∧ (compressRound v k w).d = v.c ∧ (compressRound v k w).f = v.e ∧
    (compressRound v k w).g = v.f ∧ (compressRound v k w).h0 = v.g ∧
    (compressRound v k w).a.toNat =
      (v.h0.toNat + (bigSigma1 v.e).toNat + (ch v.e v.f v.g).toNat + k.toNat + w.toNat
        + (bigSigma0 v.a).toNat + (maj v.a v.b v.c).toNat) % 2 ^ 32 ∧
    (compressRound v k w).e.toNat =
      (v.d.toNat + v.h0.toNat + (bigSigma1 v.e).toNat + (ch v.e v.f v.g).toNat + k.toNat + w.toNat) % 2 ^ 32

/-- R150, R160, R161: `Compress` is the working variables taken from the hash state in order, 64 rounds with `K[t]` and
`W[t]`, and the eight variables added back lane by lane. -/
def Obligations.CompressIsSixtyFourRoundsFoldedBack : Prop :=
  ∀ (h : Hash) (blk : List Byte), ∃ v : Nat → Work,
    v 0 = ⟨h.w0, h.w1, h.w2, h.w3, h.w4, h.w5, h.w6, h.w7⟩ ∧
    (∀ t, t < 64 → v (t + 1) = compressRound (v t) (roundConstants.getD t 0) ((schedule blk).getD t 0)) ∧
    compress h blk =
      ⟨h.w0 + (v 64).a, h.w1 + (v 64).b, h.w2 + (v 64).c, h.w3 + (v 64).d,
       h.w4 + (v 64).e, h.w5 + (v 64).f, h.w6 + (v 64).g, h.w7 + (v 64).h0⟩

/-- R147, of the model's unit that no step uses (log 11): before round t ≥ 16 the sliding window holds `W[t−16] .. W[t−1]`, and the word it computes is `W[t]`. -/
def Obligations.SlidingWindowComputesTheSchedule : Prop :=
  ∀ (h : Hash) (blk : List Byte) (t : Nat), 16 ≤ t → t < 64 →
    (∀ k, k < 16 → (unitCycles t (unitLoad h blk)).win.getD k 0 = (schedule blk).getD (t - 16 + k) 0) ∧
    unitWord (unitCycles t (unitLoad h blk)) = (schedule blk).getD t 0

/-- R163, of the model's unit that no step uses (log 11): block processing at one round per internal cycle, with the sliding window, computes `Compress`. -/
def Obligations.RoundUnitComputesCompress : Prop :=
  ∀ (h : Hash) (blk : List Byte), compressByUnit h blk = compress h blk

/-! ## Padding and the digest (42_finalize.md) -/

/-- R183, R184: the shape of the padded tail: the tail, the marker, the least number of zero bytes that makes the length
congruent to 56, the length field; 64 bytes for a tail of at most 55 and 128 for a longer one. -/
def Obligations.PaddedTailShape : Prop :=
  ∀ (tail : List Byte) (len : BitVec 64), tail.length ≤ 63 →
    ∃ z, pad tail len = tail ++ [0x80] ++ List.replicate z 0x00 ++ be64bytes (len * 8) ∧
      (tail.length + 1 + z) % 64 = 56 ∧ (∀ z', (tail.length + 1 + z') % 64 = 56 → z ≤ z') ∧
      z = (119 - tail.length) % 64 ∧ (z = if tail.length ≤ 55 then 55 - tail.length else 119 - tail.length) ∧
      (pad tail len).length = if tail.length ≤ 55 then 64 else 128

/-- R182: the last eight bytes of a padded tail write eight times the message length, exactly, in base 256, the most
significant first; the number's three low bits are 0. -/
def Obligations.LengthFieldIsTheBitLength : Prop :=
  ∀ (tail : List Byte) (len : BitVec 64), len.toNat ≤ 2 ^ 61 - 1 →
    ∃ head field, pad tail len = head ++ field ∧ field.length = 8 ∧ field = be64bytes (len * 8) ∧
      field.foldl (fun n b => 256 * n + b.toNat) 0 = 8 * len.toNat ∧ 8 * len.toNat ≤ 2 ^ 64 - 8 ∧
      (len * 8).extractLsb' 0 3 = 0

/-- R197, R196: for every hash state the digest string is 67 bytes, the prefix and then lower-case hexadecimal digits. -/
def Obligations.DigestStringShape : Prop :=
  ∀ h : Hash, (digestStr h).length = 67 ∧ (digestStr h).take 3 = [0x30, 0x78, 0x20] ∧
    ∀ c ∈ (digestStr h).drop 3, (0x30 ≤ c.toNat ∧ c.toNat ≤ 0x39) ∨ (0x61 ≤ c.toNat ∧ c.toNat ≤ 0x66)

/-- R196, R210: digits 3 + 8i to 10 + 8i of the digest string write the word that `RDWORD i` reads, and the 64 digits
together write the digest value of R190. -/
def Obligations.DigestStringWritesTheHashWords : Prop :=
  ∀ h : Hash, (∀ i : BitVec 3,
      hexNumber (((digestStr h).drop (3 + 8 * i.toNat)).take 8) = (hashWord h i).toNat) ∧
    hexNumber ((digestStr h).drop 3) = (digestValue h).toNat

/-! ## Whole-machine rules -/

/-- 10_state.md R31, R44: a command word changes `H` only where `INGEST` completes a block or `FINALIZE` runs, in phase
ACCUMULATING; in FINALIZED and FAULT none does (42_finalize.md R190). -/
def Obligations.HashChangesOnlyByCompression : Prop :=
  ∀ (w : Word) (s s' : State), Executes w s s' → s'.hash ≠ s.hash →
    s.phase = .accumulating ∧
      ((decode w = .ok .finalize ∧ s'.phase = .finalized) ∨
        ((∃ b, decode w = .ok (.ingest b)) ∧ s.bufLen = 63 ∧ s'.bufLen = 0 ∧ s'.phase = .accumulating))

/-- 10_state.md R34, R44: a command word changes `LEN` only by an `INGEST` that does not fault, by one. -/
def Obligations.LengthCountsIngestedBytes : Prop :=
  ∀ (w : Word) (s s' : State), Executes w s s' →
    s'.len = if s.phase = .accumulating ∧ s'.phase = .accumulating ∧ (∃ b, decode w = .ok (.ingest b)) then s.len + 1
             else s.len

/-- 10_state.md R45 (I1, I4 in part, I5, I6) holds at reset. -/
def Obligations.InvariantHoldsAtReset : Prop := Inv State.reset

/-- 10_state.md R45 and the canonical form of the buffer: every step keeps them, from every state that has them. -/
def Obligations.EveryStepKeepsTheInvariant : Prop :=
  ∀ s s' : State, Inv s → step s = .next s' → Inv s'

/-- 40_ingest.md R121: the reset state has taken in the empty message. -/
def Obligations.ResetStateRepresentsTheEmptyMessage : Prop := Represents [] State.reset

/-- 10_state.md R45 (I2, I3, I4), 40_ingest.md R121, R126, 42_finalize.md R185, R186: every step keeps a state's message:
the buffer holds its last bytes, `H` the blocks before them, and in FINALIZED `H` is the digest of the whole message. -/
def Obligations.EveryStepKeepsTheMessage : Prop :=
  ∀ (m : List Byte) (s s' : State), Memory.wf s.buf = true → Represents m s → step s = .next s' →
    Represents (messageAfter m s) s'

/-- 70_reset_and_hazards.md R266, 43_readout.md R216, 42_finalize.md R186: from any state, reset, `INGEST` of each byte of a
message of at most 2^61 − 1 bytes, `FINALIZE`, `RDCHAR 0` to `RDCHAR 66` ends successfully with the digest of the padded
message in `H`, having responded NONE to each `INGEST` and to `FINALIZE` and then the 67 bytes of the digest string. That no response from
before the reset stands in the record is the model's choice of log 2. -/
def Obligations.HashProtocolReturnsTheDigest : Prop :=
  ∀ (m : List Byte) (s : State), m.length ≤ 2 ^ 61 - 1 →
    ∃ t, runEvents (hashEvents m) s = .next t ∧ Successful t ∧ t.hash = messageDigest m ∧
      t.responses = List.replicate (m.length + 1) .none ++ (digestStr (messageDigest m)).map .byte

/-- 40_ingest.md R125: the state after ingest calls depends only on the bytes they carry, not on how the host grouped them. -/
def Obligations.IngestIsChunkInvariant : Prop :=
  ∀ (cs cs' : List (List Byte)) (s : State), s.input = [] → cs.flatten = cs'.flatten →
    ingestCalls cs s = ingestCalls cs' s

/-- 10_state.md R32, R47 and log 3 (the model's choice of what an unwritten cell reads as): cells of the buffer at index
`BUF_LEN` and above influence no register, no response and no later step. -/
def Obligations.UnwrittenCellsAreNeverObserved : Prop :=
  ∀ s t s' : State, Memory.wf s.buf = true → Memory.wf t.buf = true → AgreeOnValid s t → step s = .next s' →
    ∃ t', step t = .next t' ∧ AgreeOnValid s' t'

/-- 60_exceptions.md R250: a step of one of several engines is its own step alone, and leaves every other engine as it was. -/
def Obligations.EnginesShareNothing : Prop :=
  ∀ (k : Nat) (es es' : List State), stepEngine k es = .next es' →
    es'.length = es.length ∧ (∀ j, j ≠ k → es'[j]? = es[j]?) ∧
    ∀ s, es[k]? = some s → ∃ s', step s = .next s' ∧ es'[k]? = some s'
end

