-- ==== Sys2Proof/Laws/Datapath.lean ====
section
/-! SUPPORT. Lengths and unfoldings of block processing, padding and the digest. -/

namespace Sys2Proof.Machine

@[simp] theorem pack_length (blk : List Byte) : (pack blk).length = 16 := by simp [pack]

/-- R12, per bit: a right rotation brings bit (i + n) mod 32 to bit i. -/
theorem getLsbD_rotr {x : Word} {n i : Nat} (hn : n < 32) (hi : i < 32) :
    (rotr x n).getLsbD i = x.getLsbD ((i + n) % 32) := by
  simp only [rotr, BitVec.getLsbD_or, BitVec.getLsbD_ushiftRight, BitVec.getLsbD_shiftLeft]
  by_cases h : i + n < 32
  · have h' : i < 32 - n := by omega
    rw [Nat.mod_eq_of_lt h, Nat.add_comm n i]
    simp [h']
  · have h1 : (i + n) % 32 = i - (32 - n) := by omega
    have h' : ¬ i < 32 - n := by omega
    rw [h1, BitVec.getLsbD_of_ge _ _ (by omega)]
    simp [hi, h']

/-- Expansion adds as many words as asked for. -/
@[simp] theorem expand_length (n : Nat) (w : List Word) : (expand n w).length = w.length + n := by
  induction n generalizing w with
  | zero => rfl
  | succ n ih => simp only [expand, ih, List.length_append, List.length_singleton]; omega

/-- Expansion keeps the words it starts from. -/
theorem expand_prefix (n : Nat) (w : List Word) : w <+: expand n w := by
  induction n generalizing w with
  | zero => exact List.prefix_rfl
  | succ n ih => exact (List.prefix_append w _).trans (ih _)

/-- Expansion in two parts. -/
theorem expand_add (m n : Nat) (w : List Word) : expand (m + n) w = expand n (expand m w) := by
  induction m generalizing w with
  | zero => rw [Nat.zero_add]; rfl
  | succ m ih => rw [Nat.succ_add, expand, ih, expand]

/-- One round more. -/
theorem compressRounds_succ (n : Nat) (w : List Word) (v : Work) :
    compressRounds (n + 1) w v = compressRound (compressRounds n w v) (roundConst n) (w.getD n 0) := by
  simp [compressRounds, List.range_succ]

@[simp] theorem compressRounds_zero (w : List Word) (v : Work) : compressRounds 0 w v = v := rfl

@[simp] theorem be64bytes_length (v : BitVec 64) : (be64bytes v).length = 8 := rfl

/-- R183: zero fill up to the length field. -/
theorem zeroFill_eq {r : Nat} (h : r ≤ 63) : zeroFill r = (119 - r) % 64 := by
  unfold zeroFill; split <;> omega

/-- R184: the padded tail fills one block or two. -/
theorem pad_length {tail : List Byte} (len : BitVec 64) (h : tail.length ≤ 63) :
    (pad tail len).length = if tail.length ≤ 55 then 64 else 128 := by
  simp only [pad, lengthField, List.length_append, List.length_singleton, List.length_replicate, be64bytes_length,
    zeroFill]
  split <;> omega

/-- Compressing the blocks of a concatenation whose first part is whole blocks. -/
theorem compressBlocks_append {h : Hash} {p q : List Byte} (hp : p.length % 64 = 0) :
    compressBlocks h (p ++ q) = compressBlocks (compressBlocks h p) q := by
  obtain ⟨n, hn⟩ : ∃ n, p.length = 64 * n := ⟨p.length / 64, by omega⟩
  have h1 : (p ++ q).length / blockBytes = n + q.length / blockBytes := by
    simp only [List.length_append, blockBytes]; omega
  have h2 : p.length / blockBytes = n := by simp only [blockBytes]; omega
  unfold compressBlocks
  rw [h1, h2, List.range_add, List.foldl_append, List.foldl_map]
  congr 1
  · funext h k
    congr 2
    rw [List.drop_append, List.drop_eq_nil_of_le (by simp only [blockBytes]; omega), List.nil_append]
    congr 1
    simp only [blockBytes]; omega
  · refine List.foldl_ext _ _ _ fun h k hk => ?_
    have hk : k < n := List.mem_range.mp hk
    congr 1
    rw [List.drop_append_of_le_length (by simp only [blockBytes]; omega),
      List.take_append_of_le_length (by simp only [List.length_drop, blockBytes]; omega)]

/-- Less than a block is not compressed. -/
theorem compressBlocks_short {h : Hash} {p : List Byte} (hp : p.length < 64) : compressBlocks h p = h := by
  have : p.length / blockBytes = 0 := by simp only [blockBytes]; omega
  simp [compressBlocks, this]

/-- Bytes that do not complete a block change nothing. -/
theorem compressBlocks_append_short {h : Hash} {p q : List Byte} (hq : p.length % 64 + q.length < 64) :
    compressBlocks h (p ++ q) = compressBlocks h p := by
  have whole (r : List Byte) : compressBlocks h r = compressBlocks h (r.take (64 * (r.length / 64))) := by
    conv => lhs; rw [← List.take_append_drop (64 * (r.length / 64)) r]
    rw [compressBlocks_append (by rw [List.length_take]; omega),
      compressBlocks_short (h := compressBlocks h _) (by rw [List.length_drop]; omega)]
  have hlen : (p ++ q).length / 64 = p.length / 64 := by rw [List.length_append]; omega
  rw [whole (p ++ q), whole p, hlen, List.take_append_of_le_length (by omega)]

/-- One block is compressed once. -/
theorem compressBlocks_one {h : Hash} {p : List Byte} (hp : p.length = 64) : compressBlocks h p = compress h p := by
  have h1 : p.length / blockBytes = 1 := by simp only [blockBytes]; omega
  have h2 : p.take blockBytes = p := List.take_of_length_le (by simp only [blockBytes]; omega)
  simp only [compressBlocks, h1, List.range_one, List.foldl_cons, List.foldl_nil, Nat.mul_zero, List.drop_zero, h2]

@[simp] theorem hashWords_length (h : Hash) : (hashWords h).length = 8 := rfl

@[simp] theorem hexWord_length (w : Word) : (hexWord w).length = 8 := by simp [hexWord]

/-- R196: the digest string is 67 bytes. -/
@[simp] theorem digestStr_length (h : Hash) : (digestStr h).length = 67 := by
  simp [digestStr, hashWords]

end Sys2Proof.Machine
end

