-- ==== Sys2Proof/Laws/Decode.lean ====
section
/-! SUPPORT. The fields of a command word, and what the decoder's answers say of them. -/

namespace Sys2Proof.Machine

@[simp] theorem opcOf_formatC (opc arg : Byte) : opcOf (formatC opc arg) = opc := by
  simp only [opcOf, formatC]
  ext i hi
  rw [BitVec.getElem_extractLsb', BitVec.getLsbD_append, if_neg (by omega), BitVec.getLsbD_append,
    if_neg (by omega), BitVec.getLsbD_eq_getElem (by omega)]
  congr 1
  omega

@[simp] theorem rsvOf_formatC (opc arg : Byte) : rsvOf (formatC opc arg) = 0 := by
  simp only [rsvOf, formatC]
  ext i hi
  simp only [BitVec.getElem_extractLsb', BitVec.getLsbD_append]
  rw [if_neg (by omega), if_pos (by omega)]
  simp

@[simp] theorem argOf_formatC (opc arg : Byte) : argOf (formatC opc arg) = arg := by
  simp only [argOf, formatC]
  ext i hi
  simp only [BitVec.getElem_extractLsb', BitVec.getLsbD_append]
  rw [if_pos (by omega), BitVec.getLsbD_eq_getElem (by omega)]
  simp

/-- A word with `RSV = 0` is the word of its opcode and argument. -/
theorem formatC_fields {w : Word} (h : rsvOf w = 0) : formatC (opcOf w) (argOf w) = w := by
  have h' : (0#16) = w.extractLsb' 8 16 := h.symm
  simp only [formatC, opcOf, argOf, h']
  ext i hi
  simp only [BitVec.getElem_append, BitVec.getElem_extractLsb']
  split_ifs
  all_goals (rw [BitVec.getLsbD_eq_getElem (by omega)]; congr 1; omega)

/-- A word's fields are what its encoder put there. -/
@[simp] theorem opcOf_encode (i : Instr) : opcOf (encode i) = opcodeByte i := opcOf_formatC _ _

@[simp] theorem rsvOf_encode (i : Instr) : rsvOf (encode i) = 0 := rsvOf_formatC _ _

@[simp] theorem argOf_encode (i : Instr) : argOf (encode i) = argByte i := argOf_formatC _ _

/-- The index of `RDWORD` survives its argument byte. -/
@[simp] theorem wordIndex_wordIndexArg (i : BitVec 3) : wordIndex (wordIndexArg i) = i := by revert i; decide

@[simp] theorem wordIndexLegal_wordIndexArg (i : BitVec 3) : wordIndexLegal (wordIndexArg i) = true := by
  revert i; decide

/-- A legal argument byte of `RDWORD` is that of its index. -/
theorem wordIndexArg_wordIndex {arg : Byte} (h : wordIndexLegal arg = true) : wordIndexArg (wordIndex arg) = arg := by
  revert arg; decide

/-- What the decoder answers, read from its answer: a decoded word has `RSV = 0`, the command's opcode and argument, and
an operand in range. -/
theorem decode_ok_fields {w : Word} {i : Instr} (h : decode w = .ok i) :
    rsvOf w = 0 ∧ opcOf w = opcodeByte i ∧ argOf w = argByte i ∧ i.WellFormed := by
  unfold decode at h
  split_ifs at h with h0 h1 h2 h3 h4 h5 h6 h7 h8 h9 <;> cases h
  all_goals simp_all [opcodeByte, argByte, Instr.WellFormed, Instr.wellFormed, wordIndexArg_wordIndex, charIndexLegal]

/-- The class of an illegal word, read from the decoder's answer (R98). -/
theorem decode_error_fields {w : Word} {e : Illegal} (h : decode w = .error e) :
    rsvOf w ≠ 0 ∨ (opcOf w ≠ opcIngest ∧ opcOf w ≠ opcFinalize ∧ opcOf w ≠ opcRdword ∧ opcOf w ≠ opcRdchar ∧
      opcOf w ≠ opcRdstat) ∨ (opcOf w = opcFinalize ∧ argOf w ≠ 0) ∨ (opcOf w = opcRdstat ∧ argOf w ≠ 0) ∨
      (opcOf w = opcRdword ∧ wordIndexLegal (argOf w) = false) ∨
      (opcOf w = opcRdchar ∧ charIndexLegal (argOf w) = false) := by
  unfold decode at h
  split_ifs at h <;> simp_all

end Sys2Proof.Machine
end

