-- ==== Sys2Proof/Laws/State.lean ====
section
/-! SUPPORT. One lemma per field of State per update, so that no proof unfolds a record update. -/

namespace Sys2Proof.Machine

@[simp] theorem memWrite_hash (a : BitVec 6) (b : Byte) (s : State) : (memWrite a b s).hash = s.hash := rfl
@[simp] theorem memWrite_buf (a : BitVec 6) (b : Byte) (s : State) : (memWrite a b s).buf = Memory.write s.buf a.toNat b := rfl
@[simp] theorem memWrite_bufLen (a : BitVec 6) (b : Byte) (s : State) : (memWrite a b s).bufLen = s.bufLen := rfl
@[simp] theorem memWrite_len (a : BitVec 6) (b : Byte) (s : State) : (memWrite a b s).len = s.len := rfl
@[simp] theorem memWrite_phase (a : BitVec 6) (b : Byte) (s : State) : (memWrite a b s).phase = s.phase := rfl
@[simp] theorem memWrite_faultCode (a : BitVec 6) (b : Byte) (s : State) : (memWrite a b s).faultCode = s.faultCode := rfl
@[simp] theorem memWrite_faultOpc (a : BitVec 6) (b : Byte) (s : State) : (memWrite a b s).faultOpc = s.faultOpc := rfl
@[simp] theorem memWrite_input (a : BitVec 6) (b : Byte) (s : State) : (memWrite a b s).input = s.input := rfl
@[simp] theorem memWrite_responses (a : BitVec 6) (b : Byte) (s : State) : (memWrite a b s).responses = s.responses := rfl

@[simp] theorem respond_hash (r : Response) (s : State) : (respond r s).hash = s.hash := rfl
@[simp] theorem respond_buf (r : Response) (s : State) : (respond r s).buf = s.buf := rfl
@[simp] theorem respond_bufLen (r : Response) (s : State) : (respond r s).bufLen = s.bufLen := rfl
@[simp] theorem respond_len (r : Response) (s : State) : (respond r s).len = s.len := rfl
@[simp] theorem respond_phase (r : Response) (s : State) : (respond r s).phase = s.phase := rfl
@[simp] theorem respond_faultCode (r : Response) (s : State) : (respond r s).faultCode = s.faultCode := rfl
@[simp] theorem respond_faultOpc (r : Response) (s : State) : (respond r s).faultOpc = s.faultOpc := rfl
@[simp] theorem respond_input (r : Response) (s : State) : (respond r s).input = s.input := rfl
@[simp] theorem respond_responses (r : Response) (s : State) : (respond r s).responses = s.responses ++ [r] := rfl

@[simp] theorem ignoredInFault_hash (s : State) : (ignoredInFault s).hash = s.hash := rfl
@[simp] theorem ignoredInFault_buf (s : State) : (ignoredInFault s).buf = s.buf := rfl
@[simp] theorem ignoredInFault_bufLen (s : State) : (ignoredInFault s).bufLen = s.bufLen := rfl
@[simp] theorem ignoredInFault_len (s : State) : (ignoredInFault s).len = s.len := rfl
@[simp] theorem ignoredInFault_phase (s : State) : (ignoredInFault s).phase = s.phase := rfl
@[simp] theorem ignoredInFault_faultCode (s : State) : (ignoredInFault s).faultCode = s.faultCode := rfl
@[simp] theorem ignoredInFault_faultOpc (s : State) : (ignoredInFault s).faultOpc = s.faultOpc := rfl
@[simp] theorem ignoredInFault_input (s : State) : (ignoredInFault s).input = s.input := rfl
@[simp] theorem ignoredInFault_responses (s : State) : (ignoredInFault s).responses = s.responses ++ [.none] := rfl

@[simp] theorem raiseFault_hash (c : FaultCause) (o : Byte) (s : State) : (raiseFault c o s).hash = s.hash := rfl
@[simp] theorem raiseFault_buf (c : FaultCause) (o : Byte) (s : State) : (raiseFault c o s).buf = s.buf := rfl
@[simp] theorem raiseFault_bufLen (c : FaultCause) (o : Byte) (s : State) : (raiseFault c o s).bufLen = s.bufLen := rfl
@[simp] theorem raiseFault_len (c : FaultCause) (o : Byte) (s : State) : (raiseFault c o s).len = s.len := rfl
@[simp] theorem raiseFault_phase (c : FaultCause) (o : Byte) (s : State) : (raiseFault c o s).phase = .fault := rfl
@[simp] theorem raiseFault_faultCode (c : FaultCause) (o : Byte) (s : State) : (raiseFault c o s).faultCode = causeCode c := rfl
@[simp] theorem raiseFault_faultOpc (c : FaultCause) (o : Byte) (s : State) : (raiseFault c o s).faultOpc = o := rfl
@[simp] theorem raiseFault_input (c : FaultCause) (o : Byte) (s : State) : (raiseFault c o s).input = s.input := rfl
@[simp] theorem raiseFault_responses (c : FaultCause) (o : Byte) (s : State) : (raiseFault c o s).responses = s.responses ++ [.none] := rfl

@[simp] theorem hardwareReset_hash (s : State) : (hardwareReset s).hash = initialHash := rfl
@[simp] theorem hardwareReset_buf (s : State) : (hardwareReset s).buf = [] := rfl
@[simp] theorem hardwareReset_bufLen (s : State) : (hardwareReset s).bufLen = 0 := rfl
@[simp] theorem hardwareReset_len (s : State) : (hardwareReset s).len = 0 := rfl
@[simp] theorem hardwareReset_phase (s : State) : (hardwareReset s).phase = .accumulating := rfl
@[simp] theorem hardwareReset_faultCode (s : State) : (hardwareReset s).faultCode = 0 := rfl
@[simp] theorem hardwareReset_faultOpc (s : State) : (hardwareReset s).faultOpc = 0 := rfl
@[simp] theorem hardwareReset_input (s : State) : (hardwareReset s).input = s.input := rfl
@[simp] theorem hardwareReset_responses (s : State) : (hardwareReset s).responses = [] := rfl

@[simp] theorem blockDone_hash (s : State) : (blockDone s).hash = compress s.hash (memRead 0 blockBytes s) := rfl
@[simp] theorem blockDone_buf (s : State) : (blockDone s).buf = s.buf := rfl
@[simp] theorem blockDone_bufLen (s : State) : (blockDone s).bufLen = 0 := rfl
@[simp] theorem blockDone_len (s : State) : (blockDone s).len = s.len := rfl
@[simp] theorem blockDone_phase (s : State) : (blockDone s).phase = s.phase := rfl
@[simp] theorem blockDone_faultCode (s : State) : (blockDone s).faultCode = s.faultCode := rfl
@[simp] theorem blockDone_faultOpc (s : State) : (blockDone s).faultOpc = s.faultOpc := rfl
@[simp] theorem blockDone_input (s : State) : (blockDone s).input = s.input := rfl
@[simp] theorem blockDone_responses (s : State) : (blockDone s).responses = s.responses := rfl

@[simp] theorem storeByte_hash (b : Byte) (s : State) : (storeByte b s).hash = s.hash := rfl
@[simp] theorem storeByte_buf (b : Byte) (s : State) : (storeByte b s).buf = Memory.write s.buf s.bufLen.toNat b := rfl
@[simp] theorem storeByte_bufLen (b : Byte) (s : State) : (storeByte b s).bufLen = s.bufLen + 1 := rfl
@[simp] theorem storeByte_len (b : Byte) (s : State) : (storeByte b s).len = s.len + 1 := rfl
@[simp] theorem storeByte_phase (b : Byte) (s : State) : (storeByte b s).phase = s.phase := rfl
@[simp] theorem storeByte_faultCode (b : Byte) (s : State) : (storeByte b s).faultCode = s.faultCode := rfl
@[simp] theorem storeByte_faultOpc (b : Byte) (s : State) : (storeByte b s).faultOpc = s.faultOpc := rfl
@[simp] theorem storeByte_input (b : Byte) (s : State) : (storeByte b s).input = s.input := rfl
@[simp] theorem storeByte_responses (b : Byte) (s : State) : (storeByte b s).responses = s.responses := rfl

@[simp] theorem finishMessage_hash (s : State) : (finishMessage s).hash = compressBlocks s.hash (pad (memRead 0 s.bufLen.toNat s) s.len) := rfl
@[simp] theorem finishMessage_buf (s : State) : (finishMessage s).buf = s.buf := rfl
@[simp] theorem finishMessage_bufLen (s : State) : (finishMessage s).bufLen = 0 := rfl
@[simp] theorem finishMessage_len (s : State) : (finishMessage s).len = s.len := rfl
@[simp] theorem finishMessage_phase (s : State) : (finishMessage s).phase = .finalized := rfl
@[simp] theorem finishMessage_faultCode (s : State) : (finishMessage s).faultCode = s.faultCode := rfl
@[simp] theorem finishMessage_faultOpc (s : State) : (finishMessage s).faultOpc = s.faultOpc := rfl
@[simp] theorem finishMessage_input (s : State) : (finishMessage s).input = s.input := rfl
@[simp] theorem finishMessage_responses (s : State) : (finishMessage s).responses = s.responses := rfl

@[simp] theorem presentWord_hash (w : Word) (s : State) : (presentWord w s).hash = s.hash := rfl
@[simp] theorem presentWord_buf (w : Word) (s : State) : (presentWord w s).buf = s.buf := rfl
@[simp] theorem presentWord_bufLen (w : Word) (s : State) : (presentWord w s).bufLen = s.bufLen := rfl
@[simp] theorem presentWord_len (w : Word) (s : State) : (presentWord w s).len = s.len := rfl
@[simp] theorem presentWord_phase (w : Word) (s : State) : (presentWord w s).phase = s.phase := rfl
@[simp] theorem presentWord_faultCode (w : Word) (s : State) : (presentWord w s).faultCode = s.faultCode := rfl
@[simp] theorem presentWord_faultOpc (w : Word) (s : State) : (presentWord w s).faultOpc = s.faultOpc := rfl
@[simp] theorem presentWord_input (w : Word) (s : State) : (presentWord w s).input = .command w :: s.input := rfl
@[simp] theorem presentWord_responses (w : Word) (s : State) : (presentWord w s).responses = s.responses := rfl

end Sys2Proof.Machine
end

