-- ==== Sys2Proof/Laws/Memory.lean ====
section
/-! SUPPORT. The pending buffer's laws: a read after a write, and the canonical form that every operation keeps. -/

namespace Sys2Proof.Machine

/-- What a canonical non-empty buffer says of its first cell. -/
theorem Memory.wfFrom_cons {lo c : Nat} {d : Byte} {m : List Host.Cell} :
    Memory.wfFrom lo ((c, d) :: m) = true ↔
      lo ≤ c ∧ c < 64 ∧ d ≠ Config.unwrittenByte ∧ Memory.wfFrom (c + 1) m = true := by
  simp [Memory.wfFrom, and_assoc]

/-- The canonical form from a higher address on holds from a lower one on. -/
theorem Memory.wfFrom_mono {lo lo' : Nat} {m : List Host.Cell} (hlo : lo' ≤ lo) (h : Memory.wfFrom lo m = true) :
    Memory.wfFrom lo' m = true := by
  cases m with
  | nil => rfl
  | cons x m =>
    obtain ⟨c, d⟩ := x
    obtain ⟨h1, h2, h3, h4⟩ := Memory.wfFrom_cons.mp h
    exact Memory.wfFrom_cons.mpr ⟨by omega, h2, h3, h4⟩

/-- Below the first listed address every cell reads as unwritten. -/
theorem Memory.read_below {lo a : Nat} {m : List Host.Cell} (h : Memory.wfFrom lo m = true) (ha : a < lo) :
    Memory.read m a = Config.unwrittenByte := by
  induction m generalizing lo with
  | nil => rfl
  | cons x m ih =>
    obtain ⟨c, d⟩ := x
    obtain ⟨h1, -, -, h4⟩ := Memory.wfFrom_cons.mp h
    rw [Memory.read, if_neg (by omega)]
    exact ih h4 (by omega)

/-- A write leaves every other cell alone (no canonical form needed). -/
theorem Memory.read_write_other {m : List Host.Cell} {a c : Nat} {b : Byte} (h : c ≠ a) :
    Memory.read (Memory.write m a b) c = Memory.read m c := by
  induction m with
  | nil =>
    by_cases hb : b = Config.unwrittenByte <;> simp [Memory.write, Memory.read, hb, h]
  | cons x m ih =>
    obtain ⟨e, d⟩ := x
    simp only [Memory.write]
    split_ifs with h1 h2 h3 h4
    · rfl
    · simp [Memory.read, h]
    · subst h3; simp [Memory.read, h]
    · subst h3; simp [Memory.read, h]
    · simp only [Memory.read, ih]

/-- A read of the cell just written gives the byte written. -/
theorem Memory.read_write_same {lo a : Nat} {m : List Host.Cell} {b : Byte} (h : Memory.wfFrom lo m = true) :
    Memory.read (Memory.write m a b) a = b := by
  induction m generalizing lo with
  | nil =>
    by_cases hb : b = Config.unwrittenByte <;> simp [Memory.write, Memory.read, hb]
  | cons x m ih =>
    obtain ⟨c, d⟩ := x
    obtain ⟨h1, -, -, h4⟩ := Memory.wfFrom_cons.mp h
    simp only [Memory.write]
    split_ifs with hlt hb heq hb
    · rw [hb, Memory.read, if_neg (by omega)]; exact Memory.read_below h4 (by omega)
    · simp [Memory.read]
    · rw [hb]; exact Memory.read_below h4 (by omega)
    · simp [Memory.read]
    · rw [Memory.read, if_neg heq]; exact ih h4

/-- A write keeps the canonical form from `lo` on. -/
theorem Memory.write_wfFrom {lo a : Nat} {m : List Host.Cell} {b : Byte} (h : Memory.wfFrom lo m = true)
    (hlo : lo ≤ a) (ha : a < 64) : Memory.wfFrom lo (Memory.write m a b) = true := by
  induction m generalizing lo with
  | nil =>
    by_cases hb : b = Config.unwrittenByte <;> simp [Memory.write, Memory.wfFrom, hb, hlo, ha]
  | cons x m ih =>
    obtain ⟨c, d⟩ := x
    obtain ⟨h1, h2, h3, h4⟩ := Memory.wfFrom_cons.mp h
    simp only [Memory.write]
    split_ifs with hlt hb heq hb
    · exact h
    · exact Memory.wfFrom_cons.mpr ⟨hlo, ha, hb, Memory.wfFrom_cons.mpr ⟨by omega, h2, h3, h4⟩⟩
    · exact Memory.wfFrom_mono (by omega) h4
    · exact Memory.wfFrom_cons.mpr ⟨hlo, ha, hb, by subst heq; exact h4⟩
    · exact Memory.wfFrom_cons.mpr ⟨h1, h2, h3, ih h4 (by omega)⟩

/-- A write inside the 64 cells keeps the canonical form. -/
theorem Memory.write_wf {a : Nat} {m : List Host.Cell} {b : Byte} (h : Memory.wf m = true) (ha : a < 64) :
    Memory.wf (Memory.write m a b) = true := Memory.write_wfFrom h (Nat.zero_le a) ha

/-- `MemWrite` keeps the canonical form. -/
theorem memWrite_wf {a : BitVec 6} {b : Byte} {s : State} (h : Memory.wf s.buf = true) :
    Memory.wf (memWrite a b s).buf = true := Memory.write_wf h a.isLt

/-- `storeByte` keeps the canonical form. -/
theorem storeByte_wf {b : Byte} {s : State} (h : Memory.wf s.buf = true) : Memory.wf (storeByte b s).buf = true :=
  Memory.write_wf h s.bufLen.isLt

/-- The buffer of the reset state is canonical. -/
theorem State.reset_wf : Memory.wf State.reset.buf = true := rfl

/-- `MemRead` returns as many bytes as asked for. -/
@[simp] theorem memRead_length (addr n : Nat) (s : State) : (memRead addr n s).length = n := by simp [memRead]

/-- Byte i of what `MemRead` returns. -/
theorem memRead_getElem {addr n i : Nat} {s : State} (h : i < (memRead addr n s).length) :
    (memRead addr n s)[i] = Memory.read s.buf (addr + i) := by simp [memRead]

/-- `MemRead` of one byte more. -/
theorem memRead_succ (addr n : Nat) (s : State) :
    memRead addr (n + 1) s = memRead addr n s ++ [Memory.read s.buf (addr + n)] := by
  simp [memRead, List.range_succ]

/-- `MemRead` depends on the cells it reads alone. -/
theorem memRead_congr {addr n : Nat} {s t : State}
    (h : ∀ i, i < n → Memory.read s.buf (addr + i) = Memory.read t.buf (addr + i)) :
    memRead addr n s = memRead addr n t := by
  simpa [memRead] using h

/-- The valid bytes after a byte is stored: those before it, then the byte. -/
theorem memRead_storeByte {b : Byte} {s : State} (h : Memory.wf s.buf = true) :
    memRead 0 (s.bufLen.toNat + 1) (storeByte b s) = memRead 0 s.bufLen.toNat s ++ [b] := by
  rw [memRead_succ]
  congr 1
  · refine memRead_congr fun i hi => ?_
    simp only [storeByte_buf, Nat.zero_add]
    exact Memory.read_write_other (by omega)
  · simp only [storeByte_buf, Nat.zero_add]
    rw [Memory.read_write_same h]

end Sys2Proof.Machine
end

