-- ==== Sys2Proof/Laws/PerInstr.lean ====
section
/-! SUPPORT. Statements per command: the fields of its word (30_encoding.md R93). -/

/-- The word of a command holds the command's opcode, `RSV = 0` and the command's argument byte. -/
def Sys2Proof.Laws.WordFields.Statement (i : Sys2Proof.Instr) : Prop :=
  Sys2Proof.Machine.opcOf (Sys2Proof.encode i) = Sys2Proof.opcodeByte i ∧
    Sys2Proof.Machine.rsvOf (Sys2Proof.encode i) = 0 ∧
    Sys2Proof.Machine.argOf (Sys2Proof.encode i) = Sys2Proof.argByte i

theorem Sys2Proof.Laws.WordFields.ingest (b : Sys2Proof.Byte) : Sys2Proof.Laws.WordFields.Statement (.ingest b) := by
  simp [Sys2Proof.Laws.WordFields.Statement]

theorem Sys2Proof.Laws.WordFields.finalize : Sys2Proof.Laws.WordFields.Statement .finalize := by
  simp [Sys2Proof.Laws.WordFields.Statement]

theorem Sys2Proof.Laws.WordFields.rdword (i : BitVec 3) : Sys2Proof.Laws.WordFields.Statement (.rdword i) := by
  simp [Sys2Proof.Laws.WordFields.Statement]

theorem Sys2Proof.Laws.WordFields.rdchar (j : Sys2Proof.Byte) : Sys2Proof.Laws.WordFields.Statement (.rdchar j) := by
  simp [Sys2Proof.Laws.WordFields.Statement]

theorem Sys2Proof.Laws.WordFields.rdstat : Sys2Proof.Laws.WordFields.Statement .rdstat := by
  simp [Sys2Proof.Laws.WordFields.Statement]
end

