-- ==== Sys2Proof/Laws/Step.lean ====
section
/-! SUPPORT. Everything one command and one step can do, said once: proofs take a step apart with these and do not unfold
`exec` or `step`. -/

namespace Sys2Proof.Machine

/-- Fault entry outside phase FAULT, and nothing in it: what an illegal word does. -/
theorem illegalCommand_of_fault {o : Byte} {s : State} (h : s.phase = .fault) :
    illegalCommand o s = ignoredInFault s := by simp [illegalCommand, h]

theorem illegalCommand_of_not_fault {o : Byte} {s : State} (h : s.phase ≠ .fault) :
    illegalCommand o s = raiseFault .illegalCommand o s := by
  unfold illegalCommand
  split
  · contradiction
  · rfl
  · rfl

/-- A byte that does not complete a block. -/
theorem appendByte_within {b : Byte} {s : State} (h : s.bufLen ≠ 63) : appendByte b s = storeByte b s := by
  refine if_neg fun h' => h (BitVec.eq_of_toNat_eq ?_)
  simpa [blockBytes] using h'

/-- A byte that completes a block. -/
theorem appendByte_complete {b : Byte} {s : State} (h : s.bufLen = 63) :
    appendByte b s = blockDone (storeByte b s) := if_pos (by simp [h, blockBytes])

@[simp] theorem appendByte_input (b : Byte) (s : State) : (appendByte b s).input = s.input := by
  unfold appendByte; split <;> rfl

@[simp] theorem appendByte_responses (b : Byte) (s : State) : (appendByte b s).responses = s.responses := by
  unfold appendByte; split <;> rfl

@[simp] theorem appendByte_phase (b : Byte) (s : State) : (appendByte b s).phase = s.phase := by
  unfold appendByte; split <;> rfl

@[simp] theorem appendByte_len (b : Byte) (s : State) : (appendByte b s).len = s.len + 1 := by
  unfold appendByte; split <;> rfl

@[simp] theorem appendByte_faultCode (b : Byte) (s : State) : (appendByte b s).faultCode = s.faultCode := by
  unfold appendByte; split <;> rfl

@[simp] theorem appendByte_faultOpc (b : Byte) (s : State) : (appendByte b s).faultOpc = s.faultOpc := by
  unfold appendByte; split <;> rfl

@[simp] theorem appendByte_buf (b : Byte) (s : State) :
    (appendByte b s).buf = Memory.write s.buf s.bufLen.toNat b := by
  unfold appendByte; split <;> rfl

@[simp] theorem appendByte_bufLen (b : Byte) (s : State) : (appendByte b s).bufLen = s.bufLen + 1 := by
  by_cases h : s.bufLen = 63
  · rw [appendByte_complete h, blockDone_bufLen, h]; rfl
  · rw [appendByte_within h]; rfl

/-- Every outcome of one command, on any state and any operand. -/
theorem exec_next {i : Instr} {s s' : State} (h : exec i s = .next s') :
    (s.phase = .fault ∧ i ≠ .rdstat ∧ s' = ignoredInFault s) ∨
    (s.phase ≠ .fault ∧ ∃ c, s' = raiseFault c (opcodeByte i) s) ∨
    (s.phase = .accumulating ∧ s.len ≠ maxLen ∧ ∃ b, i = .ingest b ∧ s' = respond .none (appendByte b s)) ∨
    (s.phase = .accumulating ∧ i = .finalize ∧ s' = respond .none (finishMessage s)) ∨
    (s.phase = .finalized ∧ ∃ k, i = .rdword k ∧ s' = respond (.word (hashWord s.hash k)) s) ∨
    (s.phase = .finalized ∧ ∃ j, i = .rdchar j ∧ s' = respond (.byte (digestChar s.hash j)) s) ∨
    (i = .rdstat ∧ s' = respond (.word (statusWord s)) s) := by
  have faults {c : FaultCause} (hp : s.phase ≠ .fault) (hs : s' = raiseFault c (opcodeByte i) s) :
      s.phase ≠ .fault ∧ ∃ c, s' = raiseFault c (opcodeByte i) s := ⟨hp, c, hs⟩
  cases i with
  | ingest b =>
    simp only [exec, execIngest] at h
    split at h
    · cases h; exact .inl ⟨‹_›, by simp, rfl⟩
    · cases h; exact .inr (.inl (faults (by simp [*]) rfl))
    · split at h
      · cases h; exact .inr (.inl (faults (by simp [*]) rfl))
      · cases h; exact .inr (.inr (.inl ⟨‹_›, ‹_›, b, rfl, rfl⟩))
  | finalize =>
    simp only [exec, execFinalize] at h
    split at h
    · cases h; exact .inl ⟨‹_›, by simp, rfl⟩
    · cases h; exact .inr (.inl (faults (by simp [*]) rfl))
    · cases h; exact .inr (.inr (.inr (.inl ⟨‹_›, rfl, rfl⟩)))
  | rdword k =>
    simp only [exec, execRdword] at h
    split at h
    · cases h; exact .inl ⟨‹_›, by simp, rfl⟩
    · cases h; exact .inr (.inl (faults (by simp [*]) rfl))
    · cases h; exact .inr (.inr (.inr (.inr (.inl ⟨‹_›, k, rfl, rfl⟩))))
  | rdchar j =>
    simp only [exec, execRdchar] at h
    split at h
    · split at h
      · cases h; exact .inl ⟨‹_›, by simp, rfl⟩
      · cases h; exact .inr (.inl (faults (by simp [*]) rfl))
      · cases h; exact .inr (.inr (.inr (.inr (.inr (.inl ⟨‹_›, j, rfl, rfl⟩)))))
    · cases h
      by_cases hp : s.phase = .fault
      · exact .inl ⟨hp, by simp, illegalCommand_of_fault hp⟩
      · exact .inr (.inl (faults hp (illegalCommand_of_not_fault hp)))
  | rdstat => cases h; simp

/-- A step takes the first thing presented. -/
theorem step_of_input {s : State} {e : HostEvent} {rest : List HostEvent} (h : s.input = e :: rest) :
    step s = takeEvent e { s with input := rest } := by
  simp only [step, portStep, h]

/-- A word that decodes runs its command. -/
theorem runWord_of_ok {w : Word} {i : Instr} {s : State} (h : decode w = .ok i) : runWord w s = exec i s := by
  simp only [runWord, h]

/-- A word that does not decode. -/
theorem runWord_of_error {w : Word} {e : Illegal} {s : State} (h : decode w = .error e) :
    runWord w s = .next (illegalCommand (opcOf w) s) := by
  simp only [runWord, h]

/-- Every outcome of one word, with the opcode byte of the word itself in the fault record. -/
theorem runWord_next {w : Word} {s s' : State} (h : runWord w s = .next s') :
    (s.phase = .fault ∧ decode w ≠ .ok .rdstat ∧ s' = ignoredInFault s) ∨
    (s.phase ≠ .fault ∧ ∃ c, s' = raiseFault c (opcOf w) s) ∨
    (s.phase = .accumulating ∧ s.len ≠ maxLen ∧
      ∃ b, decode w = .ok (.ingest b) ∧ s' = respond .none (appendByte b s)) ∨
    (s.phase = .accumulating ∧ decode w = .ok .finalize ∧ s' = respond .none (finishMessage s)) ∨
    (s.phase = .finalized ∧ ∃ k, decode w = .ok (.rdword k) ∧ s' = respond (.word (hashWord s.hash k)) s) ∨
    (s.phase = .finalized ∧ ∃ j, decode w = .ok (.rdchar j) ∧ s' = respond (.byte (digestChar s.hash j)) s) ∨
    (decode w = .ok .rdstat ∧ s' = respond (.word (statusWord s)) s) := by
  cases hd : decode w with
  | ok i =>
    rw [runWord_of_ok hd] at h
    rw [(decode_ok_fields hd).2.1]
    have := exec_next h
    simpa using this
  | error e =>
    rw [runWord_of_error hd] at h
    cases h
    by_cases hp : s.phase = .fault
    · exact .inl ⟨hp, by simp, illegalCommand_of_fault hp⟩
    · exact .inr (.inl ⟨hp, _, illegalCommand_of_not_fault hp⟩)

/-- Every outcome of one step: the engine idles, takes a word, or is reset. -/
theorem step_next {s s' : State} (h : step s = .next s') :
    (s.input = [] ∧ s' = s) ∨
    (∃ w rest, s.input = .command w :: rest ∧ runWord w { s with input := rest } = .next s') ∨
    (∃ e rest, s.input = e :: rest ∧ (e = .reset ∨ ∃ w, e = .resetDuring w) ∧
      s' = { State.reset with input := rest }) := by
  match hi : s.input with
  | [] =>
    simp only [step, portStep, hi] at h
    cases h
    exact .inl ⟨rfl, rfl⟩
  | .command w :: rest =>
    rw [step_of_input hi] at h
    exact .inr (.inl ⟨w, rest, rfl, h⟩)
  | .reset :: rest =>
    rw [step_of_input hi] at h
    cases h
    exact .inr (.inr ⟨_, rest, rfl, .inl rfl, rfl⟩)
  | .resetDuring w :: rest =>
    rw [step_of_input hi] at h
    cases h
    exact .inr (.inr ⟨_, rest, rfl, .inr ⟨w, rfl⟩, rfl⟩)

/-- What stays waiting at the port does not matter to storing a byte. -/
theorem appendByte_with_input (b : Byte) (s : State) (es : List HostEvent) :
    appendByte b { s with input := es } = { appendByte b s with input := es } := by
  unfold appendByte; simp only; split <;> rfl

/-- What stays waiting at the port does not matter to an illegal word. -/
theorem illegalCommand_with_input (o : Byte) (s : State) (es : List HostEvent) :
    illegalCommand o { s with input := es } = { illegalCommand o s with input := es } := by
  simp only [illegalCommand]; split <;> rfl

/-- What stays waiting at the port does not matter to a command, and the command leaves it. -/
theorem exec_with_input {i : Instr} {s s' : State} (es : List HostEvent) (h : exec i s = .next s') :
    exec i { s with input := es } = .next { s' with input := es } := by
  cases i with
  | ingest b =>
    simp only [exec, execIngest] at h ⊢
    split at h
    · cases h; rfl
    · cases h; rfl
    · split at h
      · cases h; rw [if_pos (by assumption)]; rfl
      · cases h; rw [if_neg (by assumption), appendByte_with_input]; rfl
  | finalize =>
    simp only [exec, execFinalize] at h ⊢
    split at h <;> cases h <;> rfl
  | rdword k =>
    simp only [exec, execRdword] at h ⊢
    split at h <;> cases h <;> rfl
  | rdchar j =>
    simp only [exec, execRdchar] at h ⊢
    split at h
    · rw [if_pos (by assumption)]; split at h <;> cases h <;> rfl
    · rw [if_neg (by assumption)]; cases h; rw [illegalCommand_with_input]
  | rdstat => cases h; rfl

end Sys2Proof.Machine
end

