-- ==== Sys2Proof/Laws/Run.lean ====
section
/-! SUPPORT. Runs of events, one event at a time. -/

namespace Sys2Proof.Machine

/-- Taking an event leaves what the host has yet to present. -/
theorem takeEvent_input {e : HostEvent} {s s' : State} (h : takeEvent e s = .next s') : s'.input = s.input := by
  cases e with
  | command w =>
    rcases runWord_next h with ⟨_, _, rfl⟩ | ⟨_, _, rfl⟩ | ⟨_, _, _, _, rfl⟩ | ⟨_, _, rfl⟩ | ⟨_, _, _, rfl⟩ |
      ⟨_, _, _, rfl⟩ | ⟨_, rfl⟩ <;> simp
  | reset => cases h; rfl
  | resetDuring w => cases h; rfl

/-- No event, no step. -/
@[simp] theorem runEvents_nil (s : State) : runEvents [] s = .next { s with input := [] } := rfl

/-- A run takes its first event and goes on with the rest from the state after it. -/
theorem runEvents_cons {e : HostEvent} {es : List HostEvent} {s s' : State}
    (h : takeEvent e { s with input := es } = .next s') : runEvents (e :: es) s = runEvents es s' := by
  have hin : es = s'.input := (takeEvent_input h).symm
  have h0 : core.step { s with input := e :: es } = .next s' :=
    (step_of_input (s := { s with input := e :: es }) rfl).trans h
  simp only [runEvents, List.length_cons, Host.Core.run, h0]
  rw [hin]

end Sys2Proof.Machine
end

