-- ==== Sys2Proof/Machine/Assembler.lean ====
section
/-! DEFINITION. The assembler syntax (30_encoding.md R101) with the pseudo-commands (R103), over lists of characters.
Conventions the rules leave open are in log 13. No step of the machine uses it. -/

namespace Sys2Proof.Machine

/-- Why a line is no command. -/
inductive AsmError where
  /-- The first word of the line is no mnemonic. -/
  | unknownMnemonic
  /-- The operands are not of the mnemonic's form. -/
  | badOperand
  /-- R101: an operand out of range is refused, never truncated. -/
  | outOfRange
deriving DecidableEq, Repr

/-- The character that quotes one character. -/
def asmQuote : Char := Char.ofNat 39

/-- The character that quotes a string. -/
def asmDoubleQuote : Char := Char.ofNat 34

/-- Spaces, tabs and carriage returns. -/
def asmBlank (c : Char) : Bool := c == ' ' || c.toNat == 9 || c.toNat == 13

/-- The line up to the `;` that starts a comment, which none does inside quotes; the flag says inside a string. -/
def asmUncomment : Bool → List Char → List Char
  | _, [] => []
  | true, c :: cs => c :: asmUncomment (c != asmDoubleQuote) cs
  | false, c :: d :: e :: cs =>
    if c == asmQuote && e == asmQuote then c :: d :: e :: asmUncomment false cs
    else if c == ';' then []
    else c :: asmUncomment (c == asmDoubleQuote) (d :: e :: cs)
  | false, c :: cs => if c == ';' then [] else c :: asmUncomment (c == asmDoubleQuote) cs

/-- The value of a decimal digit. -/
def asmDecDigit (c : Char) : Option Nat := if 48 ≤ c.toNat && c.toNat ≤ 57 then some (c.toNat - 48) else none

/-- The value of a hexadecimal digit, in either case. -/
def asmHexDigit (c : Char) : Option Nat :=
  if 97 ≤ c.toNat && c.toNat ≤ 102 then some (c.toNat - 87)
  else if 65 ≤ c.toNat && c.toNat ≤ 70 then some (c.toNat - 55)
  else asmDecDigit c

/-- A numeral at the head of the line: its value and what follows it. -/
def asmNumeral (base : Nat) (digit : Char → Option Nat) (cs : List Char) : Option (Nat × List Char) :=
  let ds := cs.takeWhile fun c => (digit c).isSome
  if ds.isEmpty then none
  else some (ds.foldl (fun n c => base * n + (digit c).getD 0) 0, cs.drop ds.length)

/-- R101: one operand at the head of the line, a quoted ASCII character, `0x` hexadecimal or decimal. -/
def asmOperand (cs : List Char) : Option (Nat × List Char) :=
  match cs.dropWhile asmBlank with
  | a :: b :: c :: rest =>
    if a == asmQuote && c == asmQuote then (if b.toNat < 128 then some (b.toNat, rest) else none)
    else if a == '0' && b == 'x' then asmNumeral 16 asmHexDigit (c :: rest)
    else asmNumeral 10 asmDecDigit (a :: b :: c :: rest)
  | short => asmNumeral 10 asmDecDigit short

/-- Operands separated by commas, to the end of the line; the number bounds how many. -/
def asmOperands : Nat → List Char → Option (List Nat)
  | 0, _ => none
  | n + 1, cs =>
    match asmOperand cs with
    | none => none
    | some (v, rest) =>
      match rest.dropWhile asmBlank with
      | [] => some [v]
      | c :: more => if c == ',' then (asmOperands n more).map (v :: ·) else none

/-- A string of ASCII characters in double quotes, with nothing after it. -/
def asmString (cs : List Char) : Option (List Byte) :=
  match cs.dropWhile asmBlank with
  | [] => none
  | q :: rest =>
    let body := rest.takeWhile (· != asmDoubleQuote)
    match rest.drop body.length with
    | [] => none
    | _ :: after =>
      if q == asmDoubleQuote && after.all asmBlank && body.all (fun c => decide (c.toNat < 128)) then
        some (body.map fun c => BitVec.ofNat 8 c.toNat)
      else none

/-- A command with one operand below a bound. -/
def asmOne (bound : Nat) (mk : Nat → Instr) (cs : List Char) : Except AsmError (List Instr) :=
  match asmOperands 1 cs with
  | some [v] => if v < bound then .ok [mk v] else .error .outOfRange
  | _ => .error .badOperand

/-- Commands without an operand. -/
def asmNone (is : List Instr) (cs : List Char) : Except AsmError (List Instr) :=
  if cs.all asmBlank then .ok is else .error .badOperand

/-- A pseudo-command with a string. -/
def asmStringCall (mk : List Byte → List Instr) (cs : List Char) : Except AsmError (List Instr) :=
  match asmString cs with
  | some bs => .ok (mk bs)
  | none => .error .badOperand

/-- R103: `INGESTB`, each byte in range. -/
def asmBytesCall (cs : List Char) : Except AsmError (List Instr) :=
  match asmOperands (cs.length + 1) cs with
  | some vs =>
    if vs.all (fun v => decide (v < 256)) then .ok (ingestCall (vs.map (BitVec.ofNat 8 ·))) else .error .outOfRange
  | none => .error .badOperand

/-- R101, R103: one line. A blank line is no command. -/
def asmLine (line : List Char) : Except AsmError (List Instr) :=
  let cs := (asmUncomment false line).dropWhile asmBlank
  let name := cs.takeWhile fun c => !asmBlank c
  let rest := cs.drop name.length
  if name = [] then .ok []
  else if name = ['I', 'N', 'G', 'E', 'S', 'T'] then asmOne 256 (fun n => .ingest (BitVec.ofNat 8 n)) rest
  else if name = ['F', 'I', 'N', 'A', 'L', 'I', 'Z', 'E'] then asmNone [.finalize] rest
  else if name = ['R', 'D', 'W', 'O', 'R', 'D'] then asmOne 8 (fun n => .rdword (BitVec.ofNat 3 n)) rest
  else if name = ['R', 'D', 'C', 'H', 'A', 'R'] then asmOne 67 (fun n => .rdchar (BitVec.ofNat 8 n)) rest
  else if name = ['R', 'D', 'S', 'T', 'A', 'T'] then asmNone [.rdstat] rest
  else if name = ['I', 'N', 'G', 'E', 'S', 'T', 'S'] then asmStringCall ingestCall rest
  else if name = ['I', 'N', 'G', 'E', 'S', 'T', 'B'] then asmBytesCall rest
  else if name = ['R', 'D', 'D', 'I', 'G', 'E', 'S', 'T'] then asmNone rdDigest rest
  else if name = ['R', 'D', 'H', 'A', 'S', 'H'] then asmNone rdHash rest
  else if name = ['H', 'A', 'S', 'H'] then asmStringCall hashCall rest
  else .error .unknownMnemonic

/-- R101: a text, one command a line, as the words it assembles to. -/
def assemble (text : List Char) : Except AsmError (List Word) :=
  (text.splitOn '\n').foldl
    (fun acc line =>
      match acc, asmLine line with
      | .ok ws, .ok is => .ok (ws ++ is.map encode)
      | .ok _, .error e => .error e
      | .error e, _ => .error e)
    (.ok [])

end Sys2Proof.Machine
end

