-- ==== Sys2Proof/Machine/Timing.lean ====
section
/-! DEFINITION. The open parameter `latency(cmd, state)` (00_scope.md R9; 70_reset_and_hazards.md R271) as an argument.
No step reads it; a claim about time takes `0 < latency w s` as its premise and nothing more. -/

namespace Sys2Proof.Machine

/-- The time the next step takes: the latency of the command word it executes. DESIGN CHOICE (log 12): a time is a number
of whole units, of no named length; the rules give no unit and say only 'any positive value', and the type holds 0 too, so
that positivity is a claim's premise. DESIGN CHOICE (log 12): a reset and an idle step take no time. -/
def stepTime (latency : Word → State → Nat) (s : State) : Nat :=
  match s.input with
  | .command w :: _ => latency w s
  | _ => 0

/-- The time `n` steps take. -/
def elapsed (latency : Word → State → Nat) : Nat → State → Nat
  | 0, _ => 0
  | n + 1, s =>
    match step s with
    | .next s' => stepTime latency s + elapsed latency n s'
    | _ => stepTime latency s

end Sys2Proof.Machine
end

