-- ==== Sys2Proof/Tests/Slice0.lean ====
section
/-! SUPPORT. The model's own tests: words, values and states from spec/95_test_vectors.md and the rules' examples, and for
each statement with hypotheses a witness that meets them. -/

namespace Sys2Proof.Machine.Tests

/-! ## Helpers -/

/-- The state of a next outcome. -/
def stateOf : Host.Outcome State Fault Refusal → Option State
  | .next s => some s
  | .fault _ => none
  | .refused _ => none

/-- A state with one command word presented. -/
def waiting (w : Word) (s : State) : State := { s with input := [.command w] }

/-- Reset and `n` bytes 0x61 ingested, n < 64. -/
def filled (n : Nat) : State :=
  { State.reset with bufLen := BitVec.ofNat 6 n, len := BitVec.ofNat 64 n, buf := (List.range n).map fun a => (a, 0x61) }

/-- The hash state of V-L1-2, "abc". -/
def abcHash : Hash :=
  ⟨0xba7816bf, 0x8f01cfea, 0x414140de, 0x5dae2223, 0xb00361a3, 0x96177a9c, 0xb410ff61, 0xf20015ad⟩

/-- After `HASH "abc"`. -/
def finalized : State := { State.reset with phase := .finalized, hash := abcHash, len := 3 }

/-- Phase FAULT, INVALID_STATE raised by `INGEST` (program P5). -/
def faulted : State := { State.reset with phase := .fault, faultCode := 2, faultOpc := 0x01 }

/-- ACCUMULATING with `LEN = 2^61 − 1`, `BUF_LEN = 63` (V-L2-D). -/
def atLimit : State := { filled 63 with len := maxLen }

/-- The padded "abc" block (V-L2-B1). -/
def abcBlock : List Byte := [0x61, 0x62, 0x63, 0x80] ++ List.replicate 59 0 ++ [0x18]

/-! ## Well-formedness and decoding (R95, R96, R100) -/

theorem test_rdchar_67_is_ill_formed : ¬ (Instr.rdchar 67).WellFormed := by decide

theorem test_rdchar_66_is_well_formed : (Instr.rdchar 66).WellFormed := by decide

/-- OPC 00000001, RSV 0, ARG 01100001. -/
theorem test_decode_ingest : decode 0b00000001000000000000000001100001 = .ok (.ingest 0x61) := by decide

/-- OPC 00000010, RSV 0, ARG 0. -/
theorem test_decode_finalize : decode 0b00000010000000000000000000000000 = .ok .finalize := by decide

/-- OPC 00000011, RSV 0, ARG 00000101. -/
theorem test_decode_rdword : decode 0b00000011000000000000000000000101 = .ok (.rdword 5) := by decide

/-- OPC 00000100, RSV 0, ARG 01000010. -/
theorem test_decode_rdchar : decode 0b00000100000000000000000001000010 = .ok (.rdchar 66) := by decide

/-- OPC 00000101, RSV 0, ARG 0. -/
theorem test_decode_rdstat : decode 0b00000101000000000000000000000000 = .ok .rdstat := by decide

theorem test_table_word : decodeTableWord 32 0x03000007 = some (.rdword 7) ∧ decodeTableWord 32 0x03000008 = none := by
  decide

/-! ## Word functions, schedule, rounds, compression (V-L2-A, B, C) -/

theorem test_word_functions :
    smallSigma0 0x12345678 = 0xe7fce6ee ∧ smallSigma1 0x12345678 = 0xa1f78649 ∧ bigSigma0 0x12345678 = 0x66146474 ∧
      bigSigma1 0x12345678 = 0x3561abda ∧ ch 0xf0f0f0f0 0xaaaaaaaa 0x55555555 = 0xa5a5a5a5 ∧
      maj 0xf0f0f0f0 0xcccccccc 0xaaaaaaaa = 0xe8e8e8e8 := by decide +kernel

theorem test_schedule_abc : (schedule abcBlock).getD 0 0 = 0x61626380 ∧ (schedule abcBlock).getD 63 0 = 0x12b1edeb := by
  decide +kernel

theorem test_round_0_abc :
    compressRound (initWork initialHash) (roundConst 0) 0x61626380 =
      ⟨0x5d6aebcd, 0x6a09e667, 0xbb67ae85, 0x3c6ef372, 0xfa2a4622, 0x510e527f, 0x9b05688c, 0x1f83d9ab⟩ := by
  decide +kernel

theorem test_compress_abc : compress initialHash abcBlock = abcHash := by decide +kernel

/-- V-L2-C2, the zero hash state and the zero block: the round constants alone. -/
theorem test_compress_zero :
    compress ⟨0, 0, 0, 0, 0, 0, 0, 0⟩ (List.replicate 64 0) =
      ⟨0x7ca51614, 0x425c3ba8, 0xce54dd2f, 0xc2020ae7, 0xb6e574d1, 0x98136d0f, 0xae7e26cc, 0xbf0be7a6⟩ := by
  decide +kernel

/-- V-L2-B4: the sliding window's first new word. -/
theorem test_window_word : windowWord (pack abcBlock) = 0x61626380 := by decide +kernel

/-! ## Padding and digest (V-L2-D, V-L1-3) -/

/-- V-L2-D3 for 56 bytes. -/
theorem test_pad_56 :
    pad (List.replicate 56 0x61) 56 =
      List.replicate 56 0x61 ++ [0x80] ++ List.replicate 63 0 ++ [0, 0, 0, 0, 0, 0, 0x01, 0xc0] := by decide +kernel

/-- V-L2-D4. -/
theorem test_largest_length_field : lengthField maxLen = [0xff, 0xff, 0xff, 0xff, 0xff, 0xff, 0xff, 0xf8] := by decide

/-- V-L1-3, "hello". -/
theorem test_digest_hello :
    messageDigest [0x68, 0x65, 0x6c, 0x6c, 0x6f] =
      ⟨0x2cf24dba, 0x5fb0a30e, 0x26e83b2a, 0xc5b9e29e, 0x1b161e5c, 0x1fa7425e, 0x73043362, 0x938b9824⟩ := by
  decide +kernel

/-! ## Commands, one step each -/

/-- R120's example. -/
theorem test_ingest_from_reset :
    (stateOf (step (waiting 0x01000061 State.reset))).map
        (fun s => ((s.buf, s.len), s.hash, statusWord s, s.responses)) =
      some (([(0, 0x61)], 1), initialHash, 0x00000100, [.none]) := by decide +kernel

/-- V-L2-D, the 64th byte. -/
theorem test_ingest_completes_block :
    (stateOf (step (waiting 0x01000061 (filled 63)))).map (fun s => (s.bufLen, s.len, s.hash, statusWord s)) =
      some (0, 64,
        ⟨0xdf5bb81c, 0xe81e0626, 0xfb45a894, 0x4fd40f31, 0xb25e6816, 0xd6d499c1, 0xab904929, 0x00635e66⟩,
        0x00000000) := by decide +kernel

/-- V-L2-D, the byte past the limit. -/
theorem test_ingest_too_large :
    (stateOf (step (waiting 0x01000000 atLimit))).map (fun s => (s.buf, s.len, statusWord s)) =
      some (atLimit.buf, maxLen, 0x00013f32) := by decide +kernel

/-- V-L1-1, the empty message. -/
theorem test_finalize_empty :
    (stateOf (step (waiting 0x02000000 State.reset))).map (fun s => (s.hash, statusWord s)) =
      some (⟨0xe3b0c442, 0x98fc1c14, 0x9afbf4c8, 0x996fb924, 0x27ae41e4, 0x649b934c, 0xa495991b, 0x7852b855⟩,
        0x00000001) := by decide +kernel

/-- V-L2-E1, n = 56: two final blocks. -/
theorem test_finalize_two_blocks :
    (stateOf (step (waiting 0x02000000 (filled 56)))).map (fun s => (s.hash, s.len)) =
      some (⟨0xb35439a4, 0xac6f0948, 0xb6d6f9e3, 0xc6af0f5f, 0x590ce20f, 0x1bde7090, 0xef797068, 0x6ec6738a⟩, 56) := by
  decide +kernel

/-- R210's example. -/
theorem test_rdword_7 :
    (stateOf (step (waiting 0x03000007 finalized))).map (fun s => (s.responses, statusWord s)) =
      some ([.word 0xf20015ad], 0x00000001) := by decide +kernel

/-- V-L2-F1. -/
theorem test_rdword_in_accumulating :
    (stateOf (step (waiting 0x03000000 State.reset))).map (fun s => (s.responses, statusWord s)) =
      some ([.none], 0x00030022) := by decide +kernel

/-- V-L1-2's last digit, 'd'. -/
theorem test_rdchar_66 :
    (stateOf (step (waiting 0x04000042 finalized))).map (fun s => s.responses) = some [.byte 0x64] := by decide +kernel

/-- V-L2-F2: the fill is kept. -/
theorem test_rdchar_in_accumulating :
    (stateOf (step (waiting 0x04000005 (filled 2)))).map (fun s => (s.responses, statusWord s)) =
      some ([.none], 0x00040222) := by decide +kernel

/-- R214's example, three bytes in. -/
theorem test_rdstat :
    (stateOf (step (waiting 0x05000000 (filled 3)))).map (fun s => s.responses) = some [.word 0x00000300] := by
  decide +kernel

/-- Program P5: the first fault stays. -/
theorem test_finalize_in_fault :
    (stateOf (step (waiting 0x02000000 faulted))).map (fun s => (s.responses, statusWord s)) =
      some ([.none], 0x00010022) := by decide +kernel

/-- V-L2-F4. -/
theorem test_all_ones_word :
    (stateOf (step (waiting 0xffffffff State.reset))).map statusWord = some 0x00ff0012 := by decide +kernel

/-- V-L2-F6: illegal before invalid. -/
theorem test_illegal_before_invalid :
    (stateOf (step (waiting 0x02000001 { finalized with len := 0 }))).map statusWord = some 0x00020012 := by
  decide +kernel

theorem test_fetch_word_runs :
    (stateOf (step (State.reset.withFetchWord 32 0x05000000))).map (fun s => s.responses) = some [.word 0] := by
  decide +kernel

theorem test_buffer_write_removes_default :
    Memory.write [(0, 0x61), (2, 0x62)] 2 0x00 = [(0, 0x61)] ∧ Memory.write [(0, 0x61)] 1 0x00 = [(0, 0x61)] := by decide

/-! ## Assembler and pseudo-commands (R101, R103) -/

theorem test_assemble_ingest :
    assemble ['I', 'N', 'G', 'E', 'S', 'T', ' ', '0', 'x', '6', '1', ' ', ';', 'a', '\n', 'R', 'D', 'S', 'T', 'A', 'T'] =
      .ok [0x01000061, 0x05000000] := by decide +kernel

/-- R101's example: refused, never truncated. -/
theorem test_assemble_refuses_rdword_8 :
    assemble ['R', 'D', 'W', 'O', 'R', 'D', ' ', '8'] = .error .outOfRange := by decide +kernel

theorem test_assemble_quoted_character :
    asmLine (['I', 'N', 'G', 'E', 'S', 'T', ' '] ++ [asmQuote, ';', asmQuote]) = .ok [.ingest 0x3b] := by decide +kernel

theorem test_assemble_string :
    asmLine (['I', 'N', 'G', 'E', 'S', 'T', 'S', ' '] ++ [asmDoubleQuote, 'a', ';', asmDoubleQuote, ' ', ';', 'x']) =
      .ok [.ingest 0x61, .ingest 0x3b] := by decide +kernel

theorem test_rddigest_expansion : rdDigest.length = 67 ∧ rdHash.length = 8 ∧ hashCall [0x61] =
    .ingest 0x61 :: .finalize :: rdDigest := by decide +kernel

/-! ## Witnesses: the hypotheses of each statement can be met -/

/-- One illegal word in each class of R98, at a boundary. -/
theorem witness_illegal_classes :
    (∃ e, decode 0x01000100 = .error e) ∧ (∃ e, decode 0x06000000 = .error e) ∧ (∃ e, decode 0x05000001 = .error e) ∧
      (∃ e, decode 0x03000008 = .error e) ∧ ∃ e, decode 0x04000043 = .error e :=
  ⟨⟨.reservedField, rfl⟩, ⟨.unassignedOpcode, rfl⟩, ⟨.rdstatArg, rfl⟩, ⟨.rdwordIndex, rfl⟩, ⟨.rdcharIndex, rfl⟩⟩

/-- `IllegalWordsAreExactlyTheClasses`, raising. -/
theorem witness_illegal_word_raises :
    ∃ (w : Word) (e : Illegal) (s s' : State), decode w = .error e ∧ s.phase ≠ .fault ∧ Executes w s s' :=
  ⟨0x06000000, .unassignedOpcode, waiting 0x06000000 State.reset, _, rfl, by decide, rfl, rfl⟩

/-- `DecodeOfEncodeIsTheCommand`, `DecodedWordIsTheCommandsWord`. -/
theorem witness_decoded_word : (Instr.rdchar 66).WellFormed ∧ decode 0x04000042 = .ok (.rdchar 66) := by decide

/-- `StepExecutesTheDecodedCommand`. -/
theorem witness_step_executes :
    ∃ (s : State) (w : Word) (rest : List HostEvent) (i : Instr), s.input = .command w :: rest ∧ decode w = .ok i :=
  ⟨waiting 0x02000000 State.reset, 0x02000000, [], .finalize, rfl, rfl⟩

/-- `IllegalWordFaultsOrIsIgnored`, in and out of phase FAULT. -/
theorem witness_illegal_word_step :
    (waiting 0x04000043 faulted).input = .command 0x04000043 :: [] ∧ (waiting 0x04000043 faulted).phase = .fault ∧
      (waiting 0x04000043 finalized).input = .command 0x04000043 :: [] ∧ (waiting 0x04000043 finalized).phase ≠ .fault ∧
      decode 0x04000043 = .error .rdcharIndex := by decide

/-- `EachCommandGetsOneResponse`, `LengthCountsIngestedBytes`, `PhaseTransitionsAreTheRules`, `OnlyIngestWritesTheBuffer`
(an `INGEST` that does not fault). -/
theorem witness_executes_ingest : ∃ s', Executes 0x01000061 (waiting 0x01000061 (filled 62)) s' ∧ s'.phase ≠ .fault :=
  ⟨_, ⟨rfl, rfl⟩, by decide⟩

/-- `PhaseTransitionsAreTheRules` (ACCUMULATING to FINALIZED), `OnlyIngestWritesTheBuffer` (another command). -/
theorem witness_executes_finalize :
    ∃ s', Executes 0x02000000 (waiting 0x02000000 (filled 62)) s' ∧ s'.phase = .finalized ∧
      ∀ b, decode 0x02000000 ≠ .ok (.ingest b) :=
  ⟨_, ⟨rfl, rfl⟩, rfl, fun _ h => by cases h⟩

/-- `IdleEngineHoldsItsState`, `IngestIsChunkInvariant`. -/
theorem witness_nothing_waiting : State.reset.input = [] ∧ [[0x61], [0x62, 0x63]].flatten = [[0x61, 0x62], [], [(0x63 : Byte)]].flatten := by
  decide

/-- `IngestAppendsOneByte`, its four cases at the boundaries of the fill and of the length. -/
theorem witness_ingest_cases :
    ((filled 62).phase = .accumulating ∧ (filled 62).len ≠ BitVec.ofNat 64 (2 ^ 61 - 1) ∧ (filled 62).bufLen ≠ 63) ∧
      ((filled 63).phase = .accumulating ∧ (filled 63).len ≠ BitVec.ofNat 64 (2 ^ 61 - 1) ∧ (filled 63).bufLen = 63 ∧
        Memory.wf (filled 63).buf = true) ∧
      (atLimit.phase = .accumulating ∧ atLimit.len = BitVec.ofNat 64 (2 ^ 61 - 1)) ∧ finalized.phase = .finalized := by
  decide +kernel

/-- `FinalizeCompressesThePaddedTail`, on both sides of a fill of 55, and in FINALIZED. -/
theorem witness_finalize_cases :
    ((filled 55).phase = .accumulating ∧ (filled 55).bufLen.toNat ≤ 55) ∧
      ((filled 56).phase = .accumulating ∧ ¬ (filled 56).bufLen.toNat ≤ 55) ∧ finalized.phase = .finalized := by
  decide +kernel

/-- `RdwordReadsOneHashWord`, `RdcharReadsOneDigestByte`: both phases, the last index, and the first and the last digit. -/
theorem witness_readout_cases :
    finalized.phase = .finalized ∧ (filled 1).phase = .accumulating ∧ (66 : Byte).toNat ≤ 66 ∧ (0 : Byte).toNat ≤ 66 ∧
      (3 : Byte).toNat = 3 + 8 * (0 : BitVec 3).toNat + 0 ∧ (66 : Byte).toNat = 3 + 8 * (7 : BitVec 3).toNat + 7 := by
  decide

/-- The examples of `RdwordReadsOneHashWord` and of `RdcharReadsOneDigestByte`. -/
theorem witness_readout_examples :
    finalized.phase = .finalized ∧ finalized.hash = messageDigest [0x61, 0x62, 0x63] ∧
      ∃ s : State, s.phase = .finalized ∧ s.hash = messageDigest [] :=
  ⟨rfl, by decide +kernel, { finalized with hash := messageDigest [] }, rfl, rfl⟩

/-- `ReadoutChangesNoState`. -/
theorem witness_readout_executes :
    ∃ s', Executes 0x04000042 (waiting 0x04000042 finalized) s' ∧ s'.phase ≠ .fault ∧ ∃ j, decode 0x04000042 = .ok (.rdchar j) :=
  ⟨_, ⟨rfl, rfl⟩, by decide, 66, rfl⟩

/-- `AtMostOneFaultInTheRulesOrder`, `FaultEntryIsPrecise`, `OnlyIngestWritesTheBuffer` (a fault), for each cause. -/
theorem witness_fault_entry :
    (∃ s', Executes 0xffffffff (waiting 0xffffffff finalized) s' ∧ s'.phase = .fault ∧ s'.faultCode = 1) ∧
      (∃ s', Executes 0x01000061 (waiting 0x01000061 finalized) s' ∧ s'.phase = .fault ∧ s'.faultCode = 2) ∧
      (∃ s', Executes 0x03000000 (waiting 0x03000000 (filled 0)) s' ∧ s'.phase = .fault ∧ s'.faultCode = 2) ∧
      (∃ s', Executes 0x01000000 (waiting 0x01000000 atLimit) s' ∧ s'.phase = .fault ∧ s'.faultCode = 3) ∧
      finalized.phase ≠ .fault ∧ (filled 0).phase ≠ .fault ∧ atLimit.phase ≠ .fault :=
  ⟨⟨_, ⟨rfl, rfl⟩, rfl, rfl⟩, ⟨_, ⟨rfl, rfl⟩, rfl, rfl⟩, ⟨_, ⟨rfl, rfl⟩, rfl, rfl⟩, ⟨_, ⟨rfl, rfl⟩, rfl, rfl⟩, by decide,
    by decide, by decide⟩

/-- `FaultPhaseExecutesOnlyRdstat`: `RDSTAT` and another word; `AtMostOneFaultInTheRulesOrder` in phase FAULT. -/
theorem witness_fault_phase :
    (∃ s', Executes 0x05000000 (waiting 0x05000000 faulted) s') ∧
      (∃ s', Executes 0x01000061 (waiting 0x01000061 faulted) s') ∧ faulted.phase = .fault :=
  ⟨⟨_, rfl, rfl⟩, ⟨_, rfl, rfl⟩, rfl⟩

/-- `FirstFaultStaysToTheEndOfTheRun`. -/
theorem witness_run_in_fault : ∃ t, runEvents ([(0x02000000 : Word), 0x05000000].map .command) faulted = .next t :=
  ⟨_, rfl⟩

/-- `ResetInputWorksInEveryPhase`, in phase FAULT. -/
theorem witness_reset_waiting : ({ faulted with input := [.reset] } : State).input = .reset :: [] := rfl

/-- `PhaseTransitionsAreTheRules`: a step that resets, from phase FAULT, and a step with nothing presented. -/
theorem witness_reset_steps :
    (∃ s', step { faulted with input := [.reset] } = .next s') ∧
      (∃ s', step { finalized with input := [.resetDuring 0x05000000] } = .next s') ∧
      (∃ s', step finalized = .next s') ∧ finalized.input = [] :=
  ⟨⟨_, rfl⟩, ⟨_, rfl⟩, ⟨_, rfl⟩, rfl⟩

/-- `ResetDuringACommandIsAReset`. -/
theorem witness_reset_during :
    ({ State.reset with input := [.resetDuring 0x01000061] } : State).input = .resetDuring 0x01000061 :: [] ∧
      ∃ t, step { State.reset with input := .command 0x01000061 :: .reset :: [] } = .next t :=
  ⟨rfl, _, rfl⟩

/-- `SigmaFunctionsPerBit`, `ChoiceAndMajorityPerBit`: a top bit, where the shifts bring in zeros. -/
theorem witness_bit_index : 31 < 32 ∧ ¬ 31 + 3 < 32 ∧ 0 < 32 ∧ 0 + 10 < 32 := by decide

/-- `ScheduleFollowsTheRecurrence`, `SlidingWindowComputesTheSchedule`, `CompressIsSixtyFourRoundsFoldedBack`: the
boundaries of the indices. -/
theorem witness_schedule_index : 15 < 16 ∧ 16 ≤ 16 ∧ 16 < 64 ∧ 16 ≤ 63 ∧ 63 < 64 := by decide

/-- `PaddedTailShape`, on both sides of 55 and at the largest tail. -/
theorem witness_tail_lengths :
    (List.replicate 55 (0x61 : Byte)).length ≤ 55 ∧ ¬ (List.replicate 56 (0x61 : Byte)).length ≤ 55 ∧
      (List.replicate 63 (0x61 : Byte)).length ≤ 63 := by decide

/-- `LengthFieldIsTheBitLength`, at the largest length. -/
theorem witness_largest_length : maxLen.toNat ≤ 2 ^ 61 - 1 := by decide

/-- `HashChangesOnlyByCompression`: a `FINALIZE` and a block completion that change `H`. -/
theorem witness_hash_changes :
    (∃ s', Executes 0x02000000 (waiting 0x02000000 State.reset) s' ∧ s'.hash ≠ State.reset.hash) ∧
      ∃ s', Executes 0x01000061 (waiting 0x01000061 (filled 63)) s' ∧ s'.hash ≠ (filled 63).hash :=
  ⟨⟨_, ⟨rfl, rfl⟩, by decide +kernel⟩, ⟨_, ⟨rfl, rfl⟩, by decide +kernel⟩⟩

/-- `EveryStepKeepsTheInvariant`, `RdstatReadsTheStatus`, in each phase. -/
theorem witness_invariant :
    Inv (filled 63) ∧ Inv atLimit ∧ Inv finalized ∧ Inv faulted ∧
      ∃ s', step (waiting 0x01000061 (filled 63)) = .next s' :=
  ⟨by decide +kernel, by decide +kernel, by decide +kernel, by decide +kernel, _, rfl⟩

/-- `EveryStepKeepsTheMessage`, in ACCUMULATING with 63 bytes taken in. -/
theorem witness_message :
    Memory.wf (filled 63).buf = true ∧ Represents (List.replicate 63 0x61) (filled 63) ∧
      ∃ s', step (waiting 0x01000061 (filled 63)) = .next s' :=
  ⟨by decide +kernel, ⟨by decide +kernel, by decide +kernel, by decide +kernel, by decide +kernel, by decide +kernel⟩, _, rfl⟩

/-- `HashProtocolReturnsTheDigest`. -/
theorem witness_message_length : ([0x61, 0x62, 0x63] : List Byte).length ≤ 2 ^ 61 - 1 := by decide

/-- `UnwrittenCellsAreNeverObserved`: two states that differ in a cell at index `BUF_LEN`. -/
theorem witness_unwritten_cells :
    Memory.wf (filled 2).buf = true ∧ Memory.wf (Memory.write (filled 2).buf 2 0xff) = true ∧
      AgreeOnValid (filled 2) { filled 2 with buf := Memory.write (filled 2).buf 2 0xff } ∧
      (filled 2).buf ≠ Memory.write (filled 2).buf 2 0xff ∧ ∃ s', step (filled 2) = .next s' :=
  ⟨by decide, by decide, ⟨rfl, by decide⟩, by decide, _, rfl⟩

/-- `EnginesShareNothing`. -/
theorem witness_engines :
    ∃ es', stepEngine 1 [State.reset, waiting 0x02000000 (filled 1)] = .next es' ∧
      [State.reset, waiting 0x02000000 (filled 1)][1]? = some (waiting 0x02000000 (filled 1)) :=
  ⟨_, rfl, rfl⟩

end Sys2Proof.Machine.Tests
end

section
/-! PROOFS. The statements about the state of the engine (10_state.md): what one step does to the phase, the length, the
hash state, the invariant of R45 and the message taken in. -/

namespace Sys2Proof.Machine

/-! ## One executed word -/

/-- Every outcome of executing the word presented next, with the conditions said of the state before the step. -/
protected theorem Executes.next {w : Word} {s s' : State} (h : Executes w s s') :
    (s.phase = .fault ∧ decode w ≠ .ok .rdstat ∧ s' = ignoredInFault { s with input := s.input.tail }) ∨
    (s.phase ≠ .fault ∧ ∃ c, s' = raiseFault c (opcOf w) { s with input := s.input.tail }) ∨
    (s.phase = .accumulating ∧ s.len ≠ maxLen ∧
      ∃ b, decode w = .ok (.ingest b) ∧ s' = respond .none (appendByte b { s with input := s.input.tail })) ∨
    (s.phase = .accumulating ∧ decode w = .ok .finalize ∧
      s' = respond .none (finishMessage { s with input := s.input.tail })) ∨
    (s.phase = .finalized ∧
      ∃ k, decode w = .ok (.rdword k) ∧ s' = respond (.word (hashWord s.hash k)) { s with input := s.input.tail }) ∨
    (s.phase = .finalized ∧
      ∃ j, decode w = .ok (.rdchar j) ∧ s' = respond (.byte (digestChar s.hash j)) { s with input := s.input.tail }) ∨
    (decode w = .ok .rdstat ∧ s' = respond (.word (statusWord s)) { s with input := s.input.tail }) := by
  obtain ⟨hhead, hstep⟩ := h
  obtain ⟨rest, hin⟩ := List.head?_eq_some_iff.mp hhead
  rw [step_of_input hin] at hstep
  rw [hin]
  exact runWord_next hstep

/-- R120: the byte is taken in ACCUMULATING below the limit. -/
theorem exec_ingest_of_accumulating {b : Byte} {s : State} (hp : s.phase = .accumulating) (hl : s.len ≠ maxLen) :
    exec (.ingest b) s = .next (respond .none (appendByte b s)) := by
  simp [exec, execIngest, hp, hl]

/-- R124: a byte that does not complete a block leaves `H`. -/
theorem appendByte_hash_within {b : Byte} {s : State} (h : s.bufLen ≠ 63) : (appendByte b s).hash = s.hash := by
  rw [appendByte_within h, storeByte_hash]

/-- R34: below the limit one more byte is counted exactly. -/
theorem len_add_one_toNat {n : BitVec 64} (hle : n.toNat ≤ 2 ^ 61 - 1) (hne : n ≠ maxLen) :
    (n + 1).toNat = n.toNat + 1 ∧ n.toNat + 1 ≤ 2 ^ 61 - 1 := by
  have hlt : n.toNat ≠ 2 ^ 61 - 1 := fun h => hne (BitVec.eq_of_toNat_eq h)
  constructor <;> bv_omega

/-- R33: `BUF_LEN`, six bits wide, counts modulo 64. -/
theorem bufLen_add_one_toNat {f : BitVec 6} {n : Nat} (h : f.toNat = n % 64) : (f + 1).toNat = (n + 1) % 64 := by
  bv_omega

/-! ## The message -/

/-- R45 (I2, I3) at `s`, in phase ACCUMULATING. -/
theorem represents_of_accumulating {m : List Byte} {s : State} (hp : s.phase = .accumulating) :
    Represents m s ↔ s.len.toNat = m.length ∧ m.length ≤ 2 ^ 61 - 1 ∧ s.bufLen.toNat = m.length % 64 ∧
      memRead 0 s.bufLen.toNat s = m.drop (64 * (m.length / 64)) ∧ s.hash = compressBlocks initialHash m := by
  simp only [Represents, hp]

/-- R45 (I4) at `s`, in phase FINALIZED. -/
theorem represents_of_finalized {m : List Byte} {s : State} (hp : s.phase = .finalized) :
    Represents m s ↔ s.len.toNat = m.length ∧ m.length ≤ 2 ^ 61 - 1 ∧ s.bufLen = 0 ∧ s.hash = messageDigest m := by
  simp only [Represents, hp]

/-- In phase FAULT only the length is said. -/
theorem represents_of_fault {m : List Byte} {s : State} (hp : s.phase = .fault) :
    Represents m s ↔ s.len.toNat = m.length ∧ m.length ≤ 2 ^ 61 - 1 := by
  simp only [Represents, hp, and_true]

/-- What waits at the port is no part of the message. -/
protected theorem Represents.withInput {m : List Byte} {s : State} (h : Represents m s) (es : List HostEvent) :
    Represents m { s with input := es } := h

/-- A response is no part of the message. -/
protected theorem Represents.respond {m : List Byte} {s : State} (h : Represents m s) (r : Response) :
    Represents m (respond r s) := h

/-- R240: a fault keeps the length. -/
protected theorem Represents.raiseFault {m : List Byte} {s : State} (h : Represents m s) (c : FaultCause) (o : Byte) :
    Represents m (raiseFault c o s) := by
  obtain ⟨hlen, hmax, -⟩ := h
  exact (represents_of_fault rfl).mpr ⟨hlen, hmax⟩

/-- R46: a state at its reset values has taken in nothing. -/
theorem represents_nil_reset (es : List HostEvent) : Represents [] { State.reset with input := es } :=
  (represents_of_accumulating rfl).mpr ⟨rfl, Nat.zero_le _, rfl, rfl, (compressBlocks_short (by decide)).symm⟩

/-- R126: the blocks of a message that goes on are those already complete, then those of the pending tail that goes on. -/
theorem compressBlocks_append_tail (h : Hash) (m q : List Byte) :
    compressBlocks h (m ++ q) = compressBlocks (compressBlocks h m) (m.drop (64 * (m.length / 64)) ++ q) := by
  have hwhole : (m.take (64 * (m.length / 64))).length % 64 = 0 := by rw [List.length_take]; omega
  have htail : (m.drop (64 * (m.length / 64))).length < 64 := by rw [List.length_drop]; omega
  have hm : compressBlocks h m = compressBlocks h (m.take (64 * (m.length / 64))) := by
    conv => lhs; rw [← List.take_append_drop (64 * (m.length / 64)) m]
    rw [compressBlocks_append hwhole, compressBlocks_short htail]
  rw [hm, ← compressBlocks_append hwhole, ← List.append_assoc, List.take_append_drop]

/-- R124: the byte that completes a block compresses the pending tail and the byte. -/
theorem compressBlocks_append_complete {h : Hash} {m : List Byte} {b : Byte} (hm : m.length % 64 = 63) :
    compressBlocks h (m ++ [b]) = compress (compressBlocks h m) (m.drop (64 * (m.length / 64)) ++ [b]) := by
  rw [compressBlocks_append_tail, compressBlocks_one]
  rw [List.length_append, List.length_drop, List.length_singleton]; omega

/-- R45 (I2): below a complete block the pending tail grows by the byte. -/
theorem drop_blocks_append {m : List Byte} {b : Byte} (hm : m.length % 64 ≠ 63) :
    (m ++ [b]).drop (64 * ((m.length + 1) / 64)) = m.drop (64 * (m.length / 64)) ++ [b] := by
  have hblocks : (m.length + 1) / 64 = m.length / 64 := by omega
  rw [hblocks, List.drop_append_of_le_length (by omega)]

/-- R120, R124: storing a byte extends the message by it, whether or not it completes a block. -/
protected theorem Represents.appendByte {m : List Byte} {b : Byte} {s : State} (h : Represents m s)
    (hwf : Memory.wf s.buf = true) (hp : s.phase = .accumulating) (hl : s.len ≠ maxLen) :
    Represents (m ++ [b]) (appendByte b s) := by
  obtain ⟨hlen, hmax, hbuf, htail, hhash⟩ := (represents_of_accumulating hp).mp h
  obtain ⟨hlen', hmax'⟩ := len_add_one_toNat (hlen ▸ hmax) hl
  have hfill := bufLen_add_one_toNat hbuf
  have hcount : (m ++ [b]).length = m.length + 1 := by simp
  have hstored := memRead_storeByte (b := b) hwf
  rw [htail] at hstored
  rw [represents_of_accumulating (by rw [appendByte_phase, hp]), hcount, appendByte_len, hlen', hlen,
    appendByte_bufLen, hfill]
  refine ⟨rfl, hlen ▸ hmax', rfl, ?_⟩
  by_cases hfull : s.bufLen = 63
  · have h63 : m.length % 64 = 63 := by rw [← hbuf, hfull]; rfl
    have hempty : (m.length + 1) % 64 = 0 := by omega
    rw [hfull] at hstored
    rw [hempty, appendByte_complete hfull, blockDone_hash, storeByte_hash, hhash, compressBlocks_append_complete h63,
      ← hstored]
    exact ⟨(List.drop_eq_nil_of_le (by omega)).symm, rfl⟩
  · have h63 : m.length % 64 ≠ 63 := fun h63 => hfull (BitVec.eq_of_toNat_eq (hbuf.trans h63))
    have hnext : (m.length + 1) % 64 = s.bufLen.toNat + 1 := by omega
    rw [hnext, appendByte_within hfull, hstored, storeByte_hash, hhash, drop_blocks_append h63]
    exact ⟨rfl, (compressBlocks_append_short (by rw [List.length_singleton]; omega)).symm⟩

/-- R182: the length field of a message whose length `LEN` counts. -/
theorem lengthField_of_toNat {len : BitVec 64} {n : Nat} (h : len.toNat = n) :
    lengthField len = be64bytes (BitVec.ofNat 64 (8 * n)) := by
  have hbits : len * 8 = BitVec.ofNat 64 (8 * n) := by bv_omega
  rw [lengthField, hbits]

/-- R185, R186: the padded tail compressed from the blocks before it gives the digest of the whole message. -/
theorem compressBlocks_pad_tail {m : List Byte} {len : BitVec 64} (hlen : len.toNat = m.length) :
    compressBlocks (compressBlocks initialHash m) (pad (m.drop (64 * (m.length / 64))) len) = messageDigest m := by
  have htail : (m.drop (64 * (m.length / 64))).length = m.length % 64 := by rw [List.length_drop]; omega
  rw [pad, htail, zeroFill_eq (by omega), lengthField_of_toNat hlen, messageDigest, paddedMessage]
  simp only [List.append_assoc]
  rw [compressBlocks_append_tail initialHash m]

/-- R180: finishing keeps the message and leaves its digest in `H`. -/
protected theorem Represents.finishMessage {m : List Byte} {s : State} (h : Represents m s) (hp : s.phase = .accumulating) :
    Represents m (finishMessage s) := by
  obtain ⟨hlen, hmax, -, htail, hhash⟩ := (represents_of_accumulating hp).mp h
  refine (represents_of_finalized rfl).mpr ⟨hlen, hmax, rfl, ?_⟩
  rw [finishMessage_hash, htail, hhash, compressBlocks_pad_tail hlen]

/-- R121: a word that is no `INGEST` taken in ACCUMULATING below the limit leaves the message. -/
theorem messageAfter_of_not_ingested {m : List Byte} {s : State} {w : Word} {rest : List HostEvent}
    (hin : s.input = .command w :: rest)
    (h : ¬ ∃ b, decode w = .ok (.ingest b) ∧ s.phase = .accumulating ∧ s.len ≠ maxLen) : messageAfter m s = m := by
  simp only [messageAfter, hin]
  split
  · exact if_neg fun hc => h ⟨_, ‹_›, hc⟩
  · rfl

/-- R121: an `INGEST` in ACCUMULATING below the limit appends its byte. -/
theorem messageAfter_of_ingested {m : List Byte} {s : State} {w : Word} {rest : List HostEvent} {b : Byte}
    (hin : s.input = .command w :: rest) (hd : decode w = .ok (.ingest b)) (hp : s.phase = .accumulating)
    (hl : s.len ≠ maxLen) : messageAfter m s = m ++ [b] := by
  simp [messageAfter, hin, hd, hp, hl]

/-- R121: a reset, in either form, empties the message. -/
theorem messageAfter_of_reset {m : List Byte} {s : State} {e : HostEvent} {rest : List HostEvent}
    (hin : s.input = e :: rest) (he : e = .reset ∨ ∃ w, e = .resetDuring w) : messageAfter m s = [] := by
  obtain rfl | ⟨w, rfl⟩ := he <;> simp only [messageAfter, hin]

/-- One word, whether or not it is an `INGEST` that is taken, keeps the message as `messageAfter` says. -/
protected theorem Represents.runWord {m : List Byte} {s s' : State} {w : Word} {rest : List HostEvent}
    (hwf : Memory.wf s.buf = true) (h : Represents m s) (hin : s.input = .command w :: rest)
    (hrun : runWord w { s with input := rest } = .next s') : Represents (messageAfter m s) s' := by
  have h0 := h.withInput rest
  by_cases htaken : ∃ b, decode w = .ok (.ingest b) ∧ s.phase = .accumulating ∧ s.len ≠ maxLen
  · obtain ⟨b, hd, hp, hl⟩ := htaken
    rw [runWord_of_ok hd, exec_ingest_of_accumulating (s := { s with input := rest }) hp hl] at hrun
    cases hrun
    rw [messageAfter_of_ingested hin hd hp hl]
    exact (h0.appendByte hwf hp hl).respond .none
  · rw [messageAfter_of_not_ingested hin htaken]
    rcases runWord_next hrun with ⟨-, -, rfl⟩ | ⟨-, c, rfl⟩ | ⟨hp, hl, b, hd, -⟩ | ⟨hp, -, rfl⟩ | ⟨-, k, -, rfl⟩ |
      ⟨-, j, -, rfl⟩ | ⟨-, rfl⟩
    · exact h0.respond .none
    · exact h0.raiseFault c _
    · exact absurd ⟨b, hd, hp, hl⟩ htaken
    · exact (h0.finishMessage hp).respond .none
    · exact h0.respond _
    · exact h0.respond _
    · exact h0.respond _

/-- Settles O44, by what a step can do: idle, one word, or a reset. -/
theorem everyStepKeepsTheMessage : Obligations.EveryStepKeepsTheMessage := by
  intro m s s' hwf h hstep
  rcases step_next hstep with ⟨hin, rfl⟩ | ⟨w, rest, hin, hrun⟩ | ⟨e, rest, hin, he, rfl⟩
  · simpa only [messageAfter, hin] using h
  · exact h.runWord hwf hin hrun
  · rw [messageAfter_of_reset hin he]
    exact represents_nil_reset rest

/-! ## The invariant -/

/-- What waits at the port is no part of the invariant. -/
protected theorem Inv.withInput {s : State} (h : Inv s) (es : List HostEvent) : Inv { s with input := es } := h

/-- A response is no part of the invariant. -/
protected theorem Inv.respond {s : State} (h : Inv s) (r : Response) : Inv (respond r s) := h

/-- R46: the reset values meet the invariant, whatever waits at the port. -/
theorem inv_reset (es : List HostEvent) : Inv { State.reset with input := es } :=
  ⟨State.reset_wf, Nat.zero_le _, Nat.zero_le _, by simp [State.reset], fun _ => rfl, fun _ => rfl⟩

/-- R240: a fault leaves a record, whose code is 1, 2 or 3. -/
protected theorem Inv.raiseFault {s : State} (h : Inv s) (c : FaultCause) (o : Byte) : Inv (raiseFault c o s) := by
  obtain ⟨hwf, hlen, -⟩ := h
  obtain ⟨hle, hne⟩ : (causeCode c).toNat ≤ 3 ∧ causeCode c ≠ 0 := by cases c <;> decide
  exact ⟨hwf, hlen, hle, ⟨fun ⟨hzero, _⟩ => absurd hzero hne, fun hphase => absurd rfl hphase⟩, by simp, by simp⟩

/-- R120, R124: storing a byte keeps `BUF_LEN = LEN mod 64`, also where it completes a block. -/
protected theorem Inv.appendByte {s : State} (h : Inv s) (b : Byte) (hp : s.phase = .accumulating) (hl : s.len ≠ maxLen) :
    Inv (appendByte b s) := by
  obtain ⟨hwf, hlen, hcode, hrecord, hacc, -⟩ := h
  obtain ⟨hlen', hmax'⟩ := len_add_one_toNat hlen hl
  refine ⟨?_, ?_, ?_, ?_, fun _ => ?_, fun hf => ?_⟩
  · rw [appendByte_buf]; exact Memory.write_wf hwf s.bufLen.isLt
  · rwa [appendByte_len, hlen']
  · rwa [appendByte_faultCode]
  · rwa [appendByte_faultCode, appendByte_faultOpc, appendByte_phase]
  · rw [appendByte_bufLen, appendByte_len, hlen', bufLen_add_one_toNat (hacc hp)]
  · rw [appendByte_phase, hp] at hf; cases hf

/-- R180: finishing keeps the fault record clear and clears `BUF_LEN`. -/
protected theorem Inv.finishMessage {s : State} (h : Inv s) (hp : s.phase = .accumulating) : Inv (finishMessage s) := by
  obtain ⟨hwf, hlen, hcode, hrecord, -, -⟩ := h
  refine ⟨hwf, hlen, hcode, ?_, by simp, fun _ => rfl⟩
  simpa [hp] using hrecord

/-- One word keeps the invariant. -/
protected theorem Inv.runWord {s s' : State} {w : Word} (h : Inv s) (hrun : runWord w s = .next s') : Inv s' := by
  rcases runWord_next hrun with ⟨-, -, rfl⟩ | ⟨-, c, rfl⟩ | ⟨hp, hl, b, -, rfl⟩ | ⟨hp, -, rfl⟩ | ⟨-, k, -, rfl⟩ |
    ⟨-, j, -, rfl⟩ | ⟨-, rfl⟩
  · exact h.respond .none
  · exact h.raiseFault c _
  · exact (h.appendByte b hp hl).respond .none
  · exact (h.finishMessage hp).respond .none
  · exact h.respond _
  · exact h.respond _
  · exact h.respond _

/-- Settles O42, by what a step can do: idle, one word, or a reset. -/
theorem everyStepKeepsTheInvariant : Obligations.EveryStepKeepsTheInvariant := by
  intro s s' h hstep
  rcases step_next hstep with ⟨-, rfl⟩ | ⟨w, rest, -, hrun⟩ | ⟨e, rest, -, -, rfl⟩
  · exact h
  · exact (h.withInput rest).runWord hrun
  · exact inv_reset rest

/-- Settles O41: the reset state is the reset values with nothing presented. -/
theorem invariantHoldsAtReset : Obligations.InvariantHoldsAtReset := inv_reset []

/-! ## The phase, the hash state and the length -/

/-- Settles O22: the phase after each outcome of a word, an idle step and a reset. -/
theorem phaseTransitionsAreTheRules : Obligations.PhaseTransitionsAreTheRules := by
  refine ⟨rfl, fun s s' hstep => ?_, fun w s s' hexec => ?_⟩
  · rcases step_next hstep with ⟨hin, rfl⟩ | ⟨w, rest, hin, -⟩ | ⟨e, rest, hin, -, rfl⟩
    · simp [hin]
    · simp [hin]
    · simp [hin, State.reset]
  · rcases hexec.next with ⟨hp, -, rfl⟩ | ⟨-, c, rfl⟩ | ⟨hp, -, b, hd, rfl⟩ | ⟨hp, hd, rfl⟩ | ⟨hp, k, hd, rfl⟩ |
      ⟨hp, j, hd, rfl⟩ | ⟨hd, rfl⟩
    · simp [hp]
    · cases hp : s.phase <;> simp
    · simp [hp, hd]
    · simp [hp, hd]
    · simp [hp, hd]
    · simp [hp, hd]
    · cases hp : s.phase <;> simp [hd]

/-- Settles O39: of the outcomes of a word only a stored byte and `FINALIZE` write `H`, and a byte stored below index 63
does not. -/
theorem hashChangesOnlyByCompression : Obligations.HashChangesOnlyByCompression := by
  intro w s s' hexec hne
  rcases hexec.next with ⟨-, -, rfl⟩ | ⟨-, c, rfl⟩ | ⟨hp, -, b, hd, rfl⟩ | ⟨hp, hd, rfl⟩ | ⟨-, k, -, rfl⟩ |
    ⟨-, j, -, rfl⟩ | ⟨-, rfl⟩
  · exact absurd rfl hne
  · exact absurd rfl hne
  · have hfull : s.bufLen = 63 := by_contra fun hwithin => hne (appendByte_hash_within hwithin)
    refine ⟨hp, .inr ⟨⟨b, hd⟩, hfull, ?_, ?_⟩⟩
    · rw [respond_bufLen, appendByte_bufLen, hfull]; rfl
    · rwa [respond_phase, appendByte_phase]
  · exact ⟨hp, .inl ⟨hd, rfl⟩⟩
  · exact absurd rfl hne
  · exact absurd rfl hne
  · exact absurd rfl hne

/-- Settles O40: of the outcomes of a word only a stored byte writes `LEN`. -/
theorem lengthCountsIngestedBytes : Obligations.LengthCountsIngestedBytes := by
  intro w s s' hexec
  rcases hexec.next with ⟨hp, -, rfl⟩ | ⟨-, c, rfl⟩ | ⟨hp, -, b, hd, rfl⟩ | ⟨-, hd, rfl⟩ | ⟨-, k, hd, rfl⟩ |
    ⟨-, j, hd, rfl⟩ | ⟨hd, rfl⟩
  · simp [hp]
  · simp
  · simp [hp, hd]
  · simp
  · simp [hd]
  · simp [hd]
  · simp [hd]

/-- Settles O24: the reset values of R46, and the status word of their fields. -/
theorem resetStateHoldsTheRulesValues : Obligations.ResetStateHoldsTheRulesValues :=
  ⟨rfl, rfl, rfl, rfl, rfl, rfl, by decide⟩

end Sys2Proof.Machine
end

section
/-! PROOFS. The statements about the memory (20_memory.md): which command writes a buffer cell, and that a read-out writes
no state. -/

namespace Sys2Proof.Machine

/-- R70: an executed word leaves the buffer where it is no `INGEST` or ends in phase FAULT; an `INGEST` that ends outside
it has written its byte at index `BUF_LEN`. -/
protected theorem Executes.buf {w : Word} {s s' : State} (h : Executes w s s') :
    (((∀ b, decode w ≠ .ok (.ingest b)) ∨ s'.phase = .fault) ∧ s'.buf = s.buf) ∨
    (s'.phase ≠ .fault ∧ ∃ b, decode w = .ok (.ingest b) ∧ s'.buf = Memory.write s.buf s.bufLen.toNat b) := by
  rcases h.next with ⟨hp, -, rfl⟩ | ⟨-, c, rfl⟩ | ⟨hp, -, b, hd, rfl⟩ | ⟨-, hd, rfl⟩ | ⟨-, k, hd, rfl⟩ |
    ⟨-, j, hd, rfl⟩ | ⟨hd, rfl⟩
  · exact .inl ⟨.inr hp, rfl⟩
  · exact .inl ⟨.inr rfl, rfl⟩
  · exact .inr ⟨by simp [hp], b, hd, by simp⟩
  · exact .inl ⟨.inl (by simp [hd]), rfl⟩
  · exact .inl ⟨.inl (by simp [hd]), rfl⟩
  · exact .inl ⟨.inl (by simp [hd]), rfl⟩
  · exact .inl ⟨.inl (by simp [hd]), rfl⟩

/-- Settles O13: the buffer is kept, or written once at `BUF_LEN`, and a read after that write is the memory's law. -/
theorem onlyIngestWritesTheBuffer : Obligations.OnlyIngestWritesTheBuffer := by
  intro w s s' hexec
  rcases hexec.buf with ⟨hkept, hbuf⟩ | ⟨hp, b, hd, hbuf⟩
  · refine ⟨fun b hd hp => ?_, fun _ a => by rw [hbuf]⟩
    exact (hkept.elim (fun hne => hne b hd) hp).elim
  · refine ⟨fun b' hd' _ => ?_, fun hkept => ?_⟩
    · obtain rfl : b = b' := by simpa [hd] using hd'
      rw [hbuf]
      exact ⟨Memory.read_write_same, fun a => Memory.read_write_other⟩
    · exact (hkept.elim (fun hne => hne b hd) hp).elim

/-- Settles O18: of the outcomes of a word outside phase FAULT, each of a read-out is a response alone. -/
theorem readoutChangesNoState : Obligations.ReadoutChangesNoState := by
  intro w s s' hexec hphase hread
  rcases hexec.next with ⟨hp, -, rfl⟩ | ⟨-, c, rfl⟩ | ⟨-, -, b, hd, -⟩ | ⟨-, hd, -⟩ | ⟨-, k, -, rfl⟩ | ⟨-, j, -, rfl⟩ |
    ⟨-, rfl⟩
  · exact absurd hp hphase
  · exact absurd rfl hphase
  · simp [hd] at hread
  · simp [hd] at hread
  · rfl
  · rfl
  · rfl

end Sys2Proof.Machine
end

section
/-! PROOFS. The statements about the encoding (30_encoding.md): the decoder and the encoder are inverse to each other, the
table's masks, the list of the legal words and the classes of the illegal ones, and what a step answers to a word. -/

namespace Sys2Proof.Machine

/-! ## Decoder and encoder -/

/-- R95: the one operand range that the types do not hold. -/
theorem wellFormed_rdchar_iff {j : Byte} : (Instr.rdchar j).WellFormed ↔ j.toNat ≤ 66 := by
  simp only [Instr.WellFormed, Instr.wellFormed, decide_eq_true_eq]

/-- Settles O2: the fields of the word are those the encoder put there, and the decoder branches on them alone. -/
theorem decodeOfEncodeIsTheCommand : Obligations.DecodeOfEncodeIsTheCommand := by
  intro i hi
  unfold decode
  rw [if_neg (by simp), opcOf_encode, argOf_encode]
  cases i with
  | ingest b => rfl
  | finalize => rfl
  | rdword k =>
    show (if wordIndexLegal (wordIndexArg k) then _ else _) = _
    rw [if_pos (wordIndexLegal_wordIndexArg k), argByte, wordIndex_wordIndexArg]
  | rdchar j => exact if_pos hi
  | rdstat => rfl

/-- The word of a command is known by its three fields. -/
theorem encode_eq_iff {w : Word} {i : Instr} :
    encode i = w ↔ rsvOf w = 0 ∧ opcOf w = opcodeByte i ∧ argOf w = argByte i := by
  constructor
  · rintro rfl
    exact ⟨rsvOf_encode i, opcOf_encode i, argOf_encode i⟩
  · rintro ⟨hrsv, hopc, harg⟩
    rw [encode, ← hopc, ← harg, formatC_fields hrsv]

/-- Settles O4: the decoder's answer gives the fields of the word, and they are those of the command's word. -/
theorem decodedWordIsTheCommandsWord : Obligations.DecodedWordIsTheCommandsWord := by
  intro w i h
  obtain ⟨hrsv, hopc, harg, hwf⟩ := decode_ok_fields h
  exact ⟨encode_eq_iff.mpr ⟨hrsv, hopc, harg⟩, hwf⟩

/-- R97 with R93: a word decodes to a command exactly when it is the word of it and the command is well-formed. -/
theorem decode_eq_ok_iff {w : Word} {i : Instr} : decode w = .ok i ↔ encode i = w ∧ i.WellFormed := by
  refine ⟨decodedWordIsTheCommandsWord w i, ?_⟩
  rintro ⟨rfl, hwf⟩
  exact decodeOfEncodeIsTheCommand i hwf

/-- The same by the fields of the word. -/
theorem decode_eq_ok_iff_fields {w : Word} {i : Instr} :
    decode w = .ok i ↔ (rsvOf w = 0 ∧ opcOf w = opcodeByte i ∧ argOf w = argByte i) ∧ i.WellFormed := by
  rw [decode_eq_ok_iff, encode_eq_iff]

/-- Two well-formed commands have different words. -/
theorem encode_inj {i j : Instr} (hi : i.WellFormed) (hj : j.WellFormed) (h : encode i = encode j) : i = j := by
  have hd := decodeOfEncodeIsTheCommand i hi
  rw [h, decodeOfEncodeIsTheCommand j hj] at hd
  exact (Except.ok.inj hd).symm

/-- Settles O1: each word is decoded by evaluation. -/
theorem wordsDecodeAsTheTableSays : Obligations.WordsDecodeAsTheTableSays := by
  unfold Obligations.WordsDecodeAsTheTableSays
  decide

/-! ## The rows of the table (R96) -/

/-- A row's mask covers `OPC` and `RSV` and some bits of `ARG`: the word and-ed with it is the row's match value exactly
when the two fields are the row's and the covered bits of `ARG` are the match value's. -/
theorem and_mask_eq_iff {w mask value : Word} {opc arg covered : Byte} (hopc : opcOf mask = 0xFF)
    (hrsv : rsvOf mask = 0xFFFF) (harg : argOf mask = covered) (hvalue : value = formatC opc arg) :
    w &&& mask = value ↔ rsvOf w = 0 ∧ opcOf w = opc ∧ argOf w &&& covered = arg := by
  have hopc' : opcOf (w &&& mask) = opcOf w := by
    rw [opcOf, BitVec.extractLsb'_and, ← opcOf, ← opcOf, hopc]; exact BitVec.and_allOnes
  have hrsv' : rsvOf (w &&& mask) = rsvOf w := by
    rw [rsvOf, BitVec.extractLsb'_and, ← rsvOf, ← rsvOf, hrsv]; exact BitVec.and_allOnes
  have harg' : argOf (w &&& mask) = argOf w &&& covered := by
    rw [← harg]; exact BitVec.extractLsb'_and
  rw [hvalue, ← hopc', ← hrsv', ← harg']
  constructor
  · intro h
    rw [h]
    exact ⟨rsvOf_formatC _ _, opcOf_formatC _ _, argOf_formatC _ _⟩
  · rintro ⟨h, rfl, rfl⟩
    exact (formatC_fields h).symm

/-- R95: the mask 0xF8 of `RDWORD` leaves the argument bytes of the indices. -/
theorem and_wordIndexMask_eq_zero_iff {arg : Byte} : arg &&& 0xF8 = 0 ↔ ∃ k, arg = wordIndexArg k := by
  have hlegal : arg &&& 0xF8 = 0 ↔ wordIndexLegal arg = true := by revert arg; decide
  rw [hlegal]
  constructor
  · intro h
    exact ⟨wordIndex arg, (wordIndexArg_wordIndex h).symm⟩
  · rintro ⟨k, rfl⟩
    exact wordIndexLegal_wordIndexArg k

/-- R95: no index of `RDCHAR` has the bit of its mask 0x80. -/
theorem and_charIndexMask_eq_zero {arg : Byte} (h : arg.toNat ≤ 66) : arg &&& 0x80 = 0 := by
  revert arg; decide

/-- A row without operand covers every bit of the word (`FINALIZE`, `RDSTAT`). -/
theorem and_fullMask_eq_iff_decode {w value : Word} {i : Instr} (hvalue : value = encode i) (hwf : i.WellFormed) :
    w &&& 0xFFFFFFFF = value ↔ decode w = .ok i := by
  have hmask : w &&& 0xFFFFFFFF = w := BitVec.and_allOnes
  rw [hmask, hvalue, decode_eq_ok_iff, and_iff_left hwf, eq_comm]

/-- Settles O3: each row's mask speaks of the fields of the word, and so does the decoder's answer. -/
theorem wordsSelectTheirTableRow : Obligations.WordsSelectTheirTableRow := by
  intro w
  have hingest : w &&& 0xFFFFFF00 = 0x01000000 ↔ rsvOf w = 0 ∧ opcOf w = opcIngest ∧ argOf w &&& 0x00 = 0 :=
    and_mask_eq_iff rfl rfl rfl rfl
  have hrdword : w &&& 0xFFFFFFF8 = 0x03000000 ↔ rsvOf w = 0 ∧ opcOf w = opcRdword ∧ argOf w &&& 0xF8 = 0 :=
    and_mask_eq_iff rfl rfl rfl rfl
  have hrdchar : w &&& 0xFFFFFF80 = 0x04000000 ↔ rsvOf w = 0 ∧ opcOf w = opcRdchar ∧ argOf w &&& 0x80 = 0 :=
    and_mask_eq_iff rfl rfl rfl rfl
  refine ⟨?_, and_fullMask_eq_iff_decode rfl rfl, ?_, ?_, and_fullMask_eq_iff_decode rfl rfl⟩
  · rw [hingest]
    simp [decode_eq_ok_iff_fields, opcodeByte, argByte, Instr.WellFormed, Instr.wellFormed]
  · rw [hrdword, and_wordIndexMask_eq_zero_iff]
    simp [decode_eq_ok_iff_fields, opcodeByte, argByte, Instr.WellFormed, Instr.wellFormed]
  · rw [hrdchar]
    constructor
    · rintro ⟨⟨hrsv, hopc, -⟩, hle⟩
      exact ⟨argOf w, decode_eq_ok_iff_fields.mpr ⟨⟨hrsv, hopc, rfl⟩, wellFormed_rdchar_iff.mpr hle⟩⟩
    · rintro ⟨j, hd⟩
      obtain ⟨⟨hrsv, hopc, rfl⟩, hwf⟩ := decode_eq_ok_iff_fields.mp hd
      have hle := wellFormed_rdchar_iff.mp hwf
      exact ⟨⟨hrsv, hopc, and_charIndexMask_eq_zero hle⟩, hle⟩

/-! ## The list of the legal words (R102) -/

/-- The commands whose words R102 counts, family by family. -/
def legalCommands : List Instr :=
  (List.range 256).map (fun n => Instr.ingest (BitVec.ofNat 8 n)) ++ [Instr.finalize]
    ++ (List.range 8).map (fun n => Instr.rdword (BitVec.ofNat 3 n))
    ++ (List.range 67).map (fun n => Instr.rdchar (BitVec.ofNat 8 n)) ++ [Instr.rdstat]

/-- The list of R102 is that of the commands' words. -/
theorem legalWords_eq : legalWords = legalCommands.map encode := by
  simp only [legalWords, legalCommands, List.map_append, List.map_map, List.map_cons, List.map_nil]
  rfl

/-- The operands made from the numbers below a bound are the bit vectors below it. -/
theorem exists_lt_ofNat_eq_iff {k m : Nat} {x : BitVec k} (hm : m ≤ 2 ^ k) :
    (∃ n < m, BitVec.ofNat k n = x) ↔ x.toNat < m := by
  constructor
  · rintro ⟨n, hn, rfl⟩
    rwa [BitVec.toNat_ofNat, Nat.mod_eq_of_lt (by omega)]
  · intro hx
    exact ⟨x.toNat, hx, by simp⟩

/-- A family over such operands lists no command twice. -/
theorem nodup_map_range_ofNat {k m : Nat} {f : BitVec k → Instr} (hm : m ≤ 2 ^ k) (hf : f.Injective) :
    ((List.range m).map fun n => f (BitVec.ofNat k n)).Nodup := by
  refine List.Nodup.map_on (fun a ha b hb h => ?_) List.nodup_range
  have ha : a < m := List.mem_range.mp ha
  have hb : b < m := List.mem_range.mp hb
  have hab := congrArg BitVec.toNat (hf h)
  rwa [BitVec.toNat_ofNat, BitVec.toNat_ofNat, Nat.mod_eq_of_lt (by omega), Nat.mod_eq_of_lt (by omega)] at hab

/-- R95: the list holds the well-formed commands. -/
theorem mem_legalCommands {i : Instr} : i ∈ legalCommands ↔ i.WellFormed := by
  cases i with
  | ingest b => simpa [legalCommands, Instr.WellFormed, Instr.wellFormed, exists_lt_ofNat_eq_iff] using b.isLt
  | finalize => simp [legalCommands, Instr.WellFormed, Instr.wellFormed]
  | rdword k => simpa [legalCommands, Instr.WellFormed, Instr.wellFormed, exists_lt_ofNat_eq_iff] using k.isLt
  | rdchar j =>
    rw [wellFormed_rdchar_iff, ← Nat.lt_succ_iff, ← exists_lt_ofNat_eq_iff (by decide)]
    simp [legalCommands]
  | rdstat => simp [legalCommands, Instr.WellFormed, Instr.wellFormed]

/-- The families share no command, and none lists one twice. -/
theorem legalCommands_nodup : legalCommands.Nodup := by
  have hingest := nodup_map_range_ofNat (k := 8) (m := 256) (f := .ingest) (by decide) fun _ _ => Instr.ingest.inj
  have hrdword := nodup_map_range_ofNat (k := 3) (m := 8) (f := .rdword) (by decide) fun _ _ => Instr.rdword.inj
  have hrdchar := nodup_map_range_ofNat (k := 8) (m := 67) (f := .rdchar) (by decide) fun _ _ => Instr.rdchar.inj
  simp only [legalCommands, List.nodup_append, List.mem_append, List.mem_map, List.mem_singleton]
  refine ⟨⟨⟨⟨hingest, List.nodup_singleton _, ?_⟩, hrdword, ?_⟩, hrdchar, ?_⟩, List.nodup_singleton _, ?_⟩
  · rintro _ ⟨n, -, rfl⟩ _ rfl ⟨⟩
  · rintro _ (⟨n, -, rfl⟩ | rfl) _ ⟨k, -, rfl⟩ ⟨⟩
  · rintro _ ((⟨n, -, rfl⟩ | rfl) | ⟨k, -, rfl⟩) _ ⟨j, -, rfl⟩ ⟨⟩
  · rintro _ (((⟨n, -, rfl⟩ | rfl) | ⟨k, -, rfl⟩) | ⟨j, -, rfl⟩) _ rfl ⟨⟩

/-- Settles O5: the words are those of the well-formed commands, each listed once, and no two commands share a word. -/
theorem exactlyTheListedWordsAreLegal : Obligations.ExactlyTheListedWordsAreLegal := by
  rw [Obligations.ExactlyTheListedWordsAreLegal, legalWords_eq]
  refine ⟨by simp [legalCommands], ?_, fun w => ?_⟩
  · refine List.Nodup.map_on (fun i hi j hj h => ?_) legalCommands_nodup
    exact encode_inj (mem_legalCommands.mp hi) (mem_legalCommands.mp hj) h
  · simp only [List.mem_map, mem_legalCommands, decode_eq_ok_iff, and_comm]

/-! ## The classes of the illegal words (R98) -/

/-- A step that executes a word runs it at the state with the word taken. -/
protected theorem Executes.runWord {w : Word} {s s' : State} (h : Executes w s s') :
    runWord w { s with input := s.input.tail } = .next s' := by
  obtain ⟨hhead, hstep⟩ := h
  obtain ⟨rest, hin⟩ := List.head?_eq_some_iff.mp hhead
  rw [step_of_input hin] at hstep
  rwa [hin]

/-- R98 (b): the opcode bytes that no row has. -/
theorem opc_unassigned_iff {o : Byte} :
    (o = 0x00 ∨ 0x06 ≤ o.toNat) ↔
      o ≠ opcIngest ∧ o ≠ opcFinalize ∧ o ≠ opcRdword ∧ o ≠ opcRdchar ∧ o ≠ opcRdstat := by
  simp only [opcIngest, opcFinalize, opcRdword, opcRdchar, opcRdstat]
  bv_omega

/-- R98 (d): bits 7:3 of the word are those of its argument byte. -/
theorem wordIndexLegal_argOf {w : Word} : wordIndexLegal (argOf w) = false ↔ w.extractLsb' 3 5 ≠ 0 := by
  have hbits : (argOf w).extractLsb' 3 5 = w.extractLsb' 3 5 := by
    ext i hi
    simp [argOf]
  rw [wordIndexLegal, hbits]
  exact beq_eq_false_iff_ne

/-- R98 (e): the indices outside the range of R95. -/
theorem charIndexLegal_eq_false_iff {arg : Byte} : charIndexLegal arg = false ↔ 67 ≤ arg.toNat := by
  rw [charIndexLegal, decide_eq_false_iff_not, not_le]
  exact Iff.rfl

/-- R98: the word is in one of the classes (a) to (e). -/
def InIllegalClass (w : Word) : Prop :=
  rsvOf w ≠ 0 ∨ (opcOf w = 0x00 ∨ 0x06 ≤ (opcOf w).toNat) ∨
    ((opcOf w = opcFinalize ∨ opcOf w = opcRdstat) ∧ argOf w ≠ 0) ∨
    (opcOf w = opcRdword ∧ w.extractLsb' 3 5 ≠ 0) ∨ (opcOf w = opcRdchar ∧ 67 ≤ (argOf w).toNat)

/-- R98: a word that does not decode is in a class. -/
theorem inIllegalClass_of_decode_error {w : Word} {e : Illegal} (h : decode w = .error e) : InIllegalClass w := by
  rw [InIllegalClass, opc_unassigned_iff, ← wordIndexLegal_argOf, ← charIndexLegal_eq_false_iff]
  rcases decode_error_fields h with ha | hb | ⟨hopc, harg⟩ | ⟨hopc, harg⟩ | hd | he
  · exact .inl ha
  · exact .inr (.inl hb)
  · exact .inr (.inr (.inl ⟨.inl hopc, harg⟩))
  · exact .inr (.inr (.inl ⟨.inr hopc, harg⟩))
  · exact .inr (.inr (.inr (.inl hd)))
  · exact .inr (.inr (.inr (.inr he)))

/-- R98: a word that decodes is in none. -/
theorem not_inIllegalClass_of_decode_ok {w : Word} {i : Instr} (h : decode w = .ok i) : ¬ InIllegalClass w := by
  obtain ⟨hrsv, hopc, harg, hwf⟩ := decode_ok_fields h
  rw [InIllegalClass, opc_unassigned_iff, ← wordIndexLegal_argOf, ← charIndexLegal_eq_false_iff, hrsv, hopc, harg]
  cases i with
  | rdchar j =>
    have hlegal : charIndexLegal j = true := hwf
    simp [opcodeByte, argByte, opcIngest, opcFinalize, opcRdword, opcRdchar, opcRdstat, hlegal]
  | _ => simp [opcodeByte, argByte, opcIngest, opcFinalize, opcRdword, opcRdchar, opcRdstat]

/-- Settles O6: the classes of the decoder's answers, and fault entry outside phase FAULT. -/
theorem illegalWordsAreExactlyTheClasses : Obligations.IllegalWordsAreExactlyTheClasses := by
  refine ⟨fun w => ?_, fun w e s s' hd hp hexec => ?_, ⟨_, rfl⟩, _, rfl⟩
  · show _ ↔ InIllegalClass w
    refine ⟨fun ⟨e, he⟩ => inIllegalClass_of_decode_error he, fun hclass => ?_⟩
    cases hd : decode w with
    | ok i => exact absurd hclass (not_inIllegalClass_of_decode_ok hd)
    | error e => exact ⟨e, rfl⟩
  · have hrun := hexec.runWord
    rw [runWord_of_error hd, illegalCommand_of_not_fault (s := { s with input := s.input.tail }) hp] at hrun
    cases hrun
    exact ⟨rfl, rfl⟩

/-! ## What a step answers (R91, R92) -/

/-- Settles O7: the step takes the word, and the word runs its command. -/
theorem stepExecutesTheDecodedCommand : Obligations.StepExecutesTheDecodedCommand := by
  intro s w rest i hin hd
  exact (step_of_input hin).trans (runWord_of_ok hd)

/-- R91: every command completes, in every state. -/
theorem exec_completes (i : Instr) (s : State) : ∃ s', exec i s = .next s' := by
  cases i with
  | ingest b =>
    simp only [exec, execIngest]
    split
    · exact ⟨_, rfl⟩
    · exact ⟨_, rfl⟩
    · split <;> exact ⟨_, rfl⟩
  | finalize => simp only [exec, execFinalize]; split <;> exact ⟨_, rfl⟩
  | rdword k => simp only [exec, execRdword]; split <;> exact ⟨_, rfl⟩
  | rdchar j =>
    simp only [exec, execRdchar]
    split
    · split <;> exact ⟨_, rfl⟩
    · exact ⟨_, rfl⟩
  | rdstat => exact ⟨_, rfl⟩

/-- R91: every word completes, whether or not it decodes. -/
theorem runWord_completes (w : Word) (s : State) : ∃ s', runWord w s = .next s' := by
  cases hd : decode w with
  | ok i => rw [runWord_of_ok hd]; exact exec_completes i s
  | error e => exact ⟨_, runWord_of_error hd⟩

/-- Everything the host can do completes. -/
theorem takeEvent_completes (e : HostEvent) (s : State) : ∃ s', takeEvent e s = .next s' := by
  cases e with
  | command w => exact runWord_completes w s
  | reset => exact ⟨_, rfl⟩
  | resetDuring w => exact ⟨_, rfl⟩

/-- Settles O9: with nothing presented the state is held, and otherwise what was presented first is taken and completes. -/
theorem everyStepCompletes : Obligations.EveryStepCompletes := by
  intro s
  cases hin : s.input with
  | nil => exact ⟨s, by simp only [step, portStep, hin], hin⟩
  | cons e rest =>
    obtain ⟨s', hs'⟩ := takeEvent_completes e { s with input := rest }
    exact ⟨s', (step_of_input hin).trans hs', takeEvent_input hs'⟩

/-- An illegal word responds NONE, in every phase. -/
@[simp] theorem illegalCommand_responses (o : Byte) (s : State) :
    (illegalCommand o s).responses = s.responses ++ [Response.none] := by
  by_cases hp : s.phase = .fault
  · rw [illegalCommand_of_fault hp, ignoredInFault_responses]
  · rw [illegalCommand_of_not_fault hp, raiseFault_responses]

/-- R92: a command responds NONE but where it is `RDSTAT`, or `RDWORD` or `RDCHAR` in FINALIZED. -/
theorem exec_responses_none {i : Instr} {s s' : State} (h : exec i s = .next s') (hstat : i ≠ .rdstat)
    (hread : s.phase = .finalized → (∀ k, i ≠ .rdword k) ∧ ∀ j, i ≠ .rdchar j) :
    s'.responses = s.responses ++ [Response.none] := by
  rcases exec_next h with ⟨-, -, rfl⟩ | ⟨-, c, rfl⟩ | ⟨-, -, b, -, rfl⟩ | ⟨-, -, rfl⟩ | ⟨hp, k, hi, -⟩ | ⟨hp, j, hi, -⟩ |
    ⟨hi, -⟩
  · exact ignoredInFault_responses s
  · exact raiseFault_responses _ _ s
  · rw [respond_responses, appendByte_responses]
  · rw [respond_responses, finishMessage_responses]
  · exact absurd hi ((hread hp).1 k)
  · exact absurd hi ((hread hp).2 j)
  · exact absurd hi hstat

/-- R210: in FINALIZED the word is the response. -/
theorem exec_rdword_of_finalized {k : BitVec 3} {s : State} (hp : s.phase = .finalized) :
    exec (.rdword k) s = .next (respond (.word (hashWord s.hash k)) s) := by
  simp [exec, execRdword, hp]

/-- R212: in FINALIZED the byte is the response, at a legal index. -/
theorem exec_rdchar_of_finalized {j : Byte} {s : State} (hj : (Instr.rdchar j).WellFormed) (hp : s.phase = .finalized) :
    exec (.rdchar j) s = .next (respond (.byte (digestChar s.hash j)) s) := by
  have hlegal : charIndexLegal j = true := hj
  simp [exec, execRdchar, hp, hlegal]

/-- Settles O10: the response of an illegal word, and then of each command, in the phase in which it responds a value and
in the others. -/
theorem eachCommandGetsOneResponse : Obligations.EachCommandGetsOneResponse := by
  intro w s s' hexec
  have hrun := hexec.runWord
  cases hd : decode w with
  | error e =>
    rw [runWord_of_error hd] at hrun
    cases hrun
    exact ⟨.none, illegalCommand_responses _ _, rfl⟩
  | ok i =>
    rw [runWord_of_ok hd] at hrun
    have hnone := exec_responses_none hrun
    cases i with
    | ingest b => exact ⟨.none, hnone (by simp) (by simp), rfl⟩
    | finalize => exact ⟨.none, hnone (by simp) (by simp), rfl⟩
    | rdword k =>
      by_cases hp : s.phase = .finalized
      · rw [exec_rdword_of_finalized (s := { s with input := s.input.tail }) hp] at hrun
        cases hrun
        exact ⟨_, rfl, by simp [hp]⟩
      · exact ⟨.none, hnone (by simp) (fun h => absurd h hp), by simp [hp]⟩
    | rdchar j =>
      by_cases hp : s.phase = .finalized
      · obtain ⟨-, hwf⟩ := decodedWordIsTheCommandsWord w _ hd
        rw [exec_rdchar_of_finalized (s := { s with input := s.input.tail }) hwf hp] at hrun
        cases hrun
        exact ⟨_, rfl, by simp [hp]⟩
      · exact ⟨.none, hnone (by simp) (fun h => absurd h hp), by simp [hp]⟩
    | rdstat =>
      cases hrun
      exact ⟨_, rfl, _, rfl⟩

end Sys2Proof.Machine
end

section
/-! PROOFS. The statements about taking in bytes (40_ingest.md): the message of the reset state, the two cases of `INGEST`
that store and the two that fault, and that software calls are no more than the bytes they carry. -/

namespace Sys2Proof.Machine

/-- Settles O43: the reset state is the reset values with nothing presented. -/
theorem resetStateRepresentsTheEmptyMessage : Obligations.ResetStateRepresentsTheEmptyMessage :=
  represents_nil_reset []

/-! ## One `INGEST` -/

/-- R120: the word of `INGEST b`. -/
theorem encode_ingest (b : Byte) : encode (.ingest b) = 0x010000#24 ++ b := by
  have hfields : opcIngest ++ 0#16 = 0x010000#24 := by decide
  rw [← hfields]
  rfl

/-- R232: no byte is taken after `FINALIZE`. -/
theorem exec_ingest_of_finalized {b : Byte} {s : State} (hp : s.phase = .finalized) :
    exec (.ingest b) s = .next (raiseFault .invalidState opcIngest s) := by
  simp [exec, execIngest, hp, opcodeByte]

/-- R233: no byte is taken at the limit of the length. -/
theorem exec_ingest_of_limit {b : Byte} {s : State} (hp : s.phase = .accumulating) (hl : s.len = maxLen) :
    exec (.ingest b) s = .next (raiseFault .inputTooLarge opcIngest s) := by
  simp [exec, execIngest, hp, hl, opcodeByte]

/-- R120: below a complete block the byte is stored and nothing more. -/
theorem exec_ingest_within {b : Byte} {s : State} (hp : s.phase = .accumulating) (hl : s.len ≠ maxLen)
    (hfill : s.bufLen ≠ 63) : exec (.ingest b) s = .next (respond .none (storeByte b s)) := by
  rw [exec_ingest_of_accumulating hp hl, appendByte_within hfill]

/-- R124: a canonical buffer, its last cell just stored, holds the 63 bytes before and the byte. -/
theorem memRead_storeByte_block {b : Byte} {s : State} (hwf : Memory.wf s.buf = true) (hfull : s.bufLen = 63) :
    memRead 0 blockBytes (storeByte b s) = memRead 0 63 s ++ [b] := by
  simpa [hfull, blockBytes] using memRead_storeByte (b := b) hwf

/-- R124: everything that the byte completing a block changes. -/
theorem appendByte_complete_eq {b : Byte} {s : State} (hwf : Memory.wf s.buf = true) (hfull : s.bufLen = 63) :
    appendByte b s =
      { s with buf := Memory.write s.buf 63 b, bufLen := 0, len := s.len + 1,
               hash := compress s.hash (memRead 0 63 s ++ [b]) } := by
  have haddr : s.bufLen.toNat = 63 := by rw [hfull]; rfl
  rw [appendByte_complete hfull, ← memRead_storeByte_block hwf hfull, ← haddr]
  rfl

/-- Settles O12: the word is that of the command's encoder, and each case names the operation that `INGEST` is in it. -/
theorem ingestAppendsOneByte : Obligations.IngestAppendsOneByte := by
  refine ⟨fun b => ?_, fun b s => ⟨exec_ingest_within, fun hp hl hfull hwf => ?_, exec_ingest_of_limit,
    exec_ingest_of_finalized⟩, ?_⟩
  · rw [← encode_ingest]
    exact decodeOfEncodeIsTheCommand (.ingest b) rfl
  · rw [exec_ingest_of_accumulating hp hl, appendByte_complete_eq hwf hfull]
    rfl
  · exact ⟨_, exec_ingest_within rfl (by decide) (by decide), rfl, rfl, rfl, rfl, by decide⟩

/-! ## Calls of `ingest` -/

/-- What stays waiting at the port does not matter to taking one event, which leaves it. -/
theorem takeEvent_with_input {e : HostEvent} {s s' : State} (es : List HostEvent) (h : takeEvent e s = .next s') :
    takeEvent e { s with input := es } = .next { s' with input := es } := by
  cases e with
  | command w =>
    simp only [takeEvent] at h ⊢
    cases hd : decode w with
    | ok i =>
      rw [runWord_of_ok hd] at h ⊢
      exact exec_with_input es h
    | error e =>
      rw [runWord_of_error hd] at h ⊢
      cases h
      rw [illegalCommand_with_input]
  | reset => cases h; rfl
  | resetDuring w => cases h; rfl

/-- What an engine had waiting before the host presents its events does not matter to the run. -/
theorem runEvents_with_input (es fs : List HostEvent) (s : State) :
    runEvents es { s with input := fs } = runEvents es s := rfl

/-- A run of events completes, with every event taken. -/
theorem runEvents_completes (es : List HostEvent) (s : State) : ∃ t, runEvents es s = .next t ∧ t.input = [] := by
  induction es generalizing s with
  | nil => exact ⟨_, rfl, rfl⟩
  | cons e es ih =>
    obtain ⟨s', hs'⟩ := takeEvent_completes e { s with input := es }
    rw [runEvents_cons hs']
    exact ih s'

/-- A run of two lists of events, one after the other, goes on with the second from the state after the first. -/
theorem runEvents_append {es fs : List HostEvent} {s t : State} (h : runEvents es s = .next t) :
    runEvents (es ++ fs) s = runEvents fs t := by
  induction es generalizing s with
  | nil => cases h; rfl
  | cons e es ih =>
    obtain ⟨s', hs'⟩ := takeEvent_completes e { s with input := es }
    have htake := takeEvent_with_input (es ++ fs) hs'
    rw [runEvents_cons hs'] at h
    rw [List.cons_append, runEvents_cons (s := s) htake, runEvents_with_input]
    exact ih h

/-- R122: the events of two calls' bytes together are those of the one and then of the other. -/
theorem commandEvents_ingestCall_append (bs bs' : List Byte) :
    commandEvents (ingestCall (bs ++ bs')) = commandEvents (ingestCall bs) ++ commandEvents (ingestCall bs') := by
  simp [commandEvents, ingestCall]

/-- R125: calls of `ingest` are one call with all their bytes. -/
theorem ingestCalls_eq_runEvents_flatten {cs : List (List Byte)} {s : State} (hs : s.input = []) :
    ingestCalls cs s = runEvents (commandEvents (ingestCall cs.flatten)) s := by
  induction cs generalizing s with
  | nil =>
    show Host.Outcome.next s = .next { s with input := [] }
    rw [← hs]
  | cons bs cs ih =>
    obtain ⟨t, ht, hin⟩ := runEvents_completes (commandEvents (ingestCall bs)) s
    rw [List.flatten_cons, commandEvents_ingestCall_append, runEvents_append ht, ← ih hin]
    simp only [ingestCalls, ht]

/-- Settles O46: both sequences are the one call with their common bytes. -/
theorem ingestIsChunkInvariant : Obligations.IngestIsChunkInvariant := by
  intro cs cs' s hs hbytes
  rw [ingestCalls_eq_runEvents_flatten hs, ingestCalls_eq_runEvents_flatten hs, hbytes]

end Sys2Proof.Machine
end

section
/-! PROOFS. The statements about block processing (41_block_processing.md): the word functions bit by bit, the schedule,
the rounds and the fold-back, and the round-level unit of R147 and R163. -/

namespace Sys2Proof.Machine

/-- R12, per bit: a logical right shift brings bit i + n to bit i, and zeros enter at the top. -/
theorem getLsbD_shiftRight {x : Word} {n i : Nat} :
    (x >>> n).getLsbD i = (decide (i + n < 32) && x.getLsbD (i + n)) := by
  rw [BitVec.getLsbD_ushiftRight, Nat.add_comm n i]
  by_cases h : i + n < 32
  · simp [h]
  · rw [BitVec.getLsbD_of_ge x _ (by omega), Bool.and_false]

/-- Settles O28: each rotation and shift brings its bit to the place, and the exclusive-or is that of the bits. -/
theorem sigmaFunctionsPerBit : Obligations.SigmaFunctionsPerBit := by
  intro x i hi
  have hrot {n : Nat} (hn : n < 32) : (rotr x n).getLsbD i = x.getLsbD ((i + n) % 32) := getLsbD_rotr hn hi
  refine ⟨?_, ?_, ?_, ?_⟩
  · simp (disch := decide) only [smallSigma0, BitVec.getLsbD_xor, hrot, getLsbD_shiftRight]
  · simp (disch := decide) only [smallSigma1, BitVec.getLsbD_xor, hrot, getLsbD_shiftRight]
  · simp (disch := decide) only [bigSigma0, BitVec.getLsbD_xor, hrot]
  · simp (disch := decide) only [bigSigma1, BitVec.getLsbD_xor, hrot]

/-- R145 at one place: the exclusive-or of the products of three bits is the value at least two of them hold. -/
theorem xor_products_eq_majority (p q r : Bool) :
    ((p && q) ^^ (p && r) ^^ (q && r)) = decide (2 ≤ p.toNat + q.toNat + r.toNat) := by
  revert p q r; decide

/-- Settles O29: one of the two terms of the choice is 0 at the place, and the majority is that of the three bits. -/
theorem choiceAndMajorityPerBit : Obligations.ChoiceAndMajorityPerBit := by
  intro x y z i hi
  constructor
  · simp only [ch, BitVec.getLsbD_xor, BitVec.getLsbD_and, BitVec.getLsbD_not]
    cases x.getLsbD i with
    | true => simp
    | false => simp [hi]
  · simp only [maj, BitVec.getLsbD_xor, BitVec.getLsbD_and]
    exact xor_products_eq_majority _ _ _

/-- The schedule, whose name is irreducible, written out. -/
theorem schedule_eq_expand (blk : List Byte) : schedule blk = expand 48 (pack blk) := by
  rw [schedule]; rfl

/-- R142: 64 words. -/
@[simp] theorem schedule_length (blk : List Byte) : (schedule blk).length = 64 := by
  rw [schedule_eq_expand, expand_length, pack_length]

/-- R142: what is expanded so far is a beginning of the schedule. -/
theorem expand_pack_prefix_schedule {n : Nat} (hn : n ≤ 48) (blk : List Byte) :
    expand n (pack blk) <+: schedule blk := by
  rw [schedule_eq_expand, ← Nat.add_sub_of_le hn, expand_add]
  exact expand_prefix _ _

/-- R142: a word expanded so far is the schedule's word. -/
theorem expand_pack_getD {n i : Nat} (hn : n ≤ 48) (hi : i < 16 + n) (blk : List Byte) :
    (expand n (pack blk)).getD i 0 = (schedule blk).getD i 0 := by
  obtain ⟨rest, hrest⟩ := expand_pack_prefix_schedule hn blk
  rw [← hrest, List.getD_append _ _ _ _ (by simpa using hi)]

/-- R141: the first 16 words are those of the block. -/
theorem schedule_getD_packed {i : Nat} (hi : i < 16) (blk : List Byte) :
    (schedule blk).getD i 0 =
      be32 (blk.getD (4 * i) 0) (blk.getD (4 * i + 1) 0) (blk.getD (4 * i + 2) 0) (blk.getD (4 * i + 3) 0) := by
  rw [← expand_pack_getD (n := 0) (by decide) hi, expand, pack, List.getD_eq_getElem _ _ (by simpa using hi),
    List.getElem_map, List.getElem_range]

/-- R142: the word appended to the n + 16 words there are is the recurrence over four of them. -/
theorem schedule_getD_recurrence {n : Nat} (hn : n < 48) (blk : List Byte) :
    (schedule blk).getD (n + 16) 0 =
      smallSigma1 ((schedule blk).getD (n + 14) 0) + (schedule blk).getD (n + 9) 0
        + smallSigma0 ((schedule blk).getD (n + 1) 0) + (schedule blk).getD n 0 := by
  have hlen : (expand n (pack blk)).length = n + 16 := by rw [expand_length, pack_length, Nat.add_comm]
  have hword {i : Nat} (hi : i < n + 16) : (expand n (pack blk)).getD i 0 = (schedule blk).getD i 0 :=
    expand_pack_getD (by omega) (by omega) blk
  calc (schedule blk).getD (n + 16) 0
      = (expand (n + 1) (pack blk)).getD (n + 16) 0 := (expand_pack_getD (by omega) (by omega) blk).symm
    _ = (expand n (pack blk) ++ [nextScheduleWord (expand n (pack blk))]).getD (n + 16) 0 := by
      rw [expand_add]; rfl
    _ = nextScheduleWord (expand n (pack blk)) := by
      rw [List.getD_append_right _ _ _ _ hlen.le, hlen, Nat.sub_self]; rfl
    _ = _ := by
      rw [nextScheduleWord, hlen]
      simp only [Nat.reduceSubDiff, Nat.add_sub_cancel]
      rw [hword (by omega), hword (by omega), hword (by omega), hword (by omega)]

/-- Settles O30, with t as n + 16 in the recurrence. -/
theorem scheduleFollowsTheRecurrence : Obligations.ScheduleFollowsTheRecurrence := by
  intro blk
  refine ⟨schedule_length blk, fun i hi => schedule_getD_packed hi blk, fun t ht ht64 => ?_⟩
  obtain ⟨n, rfl⟩ := Nat.exists_eq_add_of_le' ht
  exact schedule_getD_recurrence (by omega) blk

/-- Settles O31: the copies are fields of the round, and the word sums reduce modulo 2^32 at each addition. -/
theorem roundCopiesSixAndComputesTwo : Obligations.RoundCopiesSixAndComputesTwo := by
  intro v k w
  refine ⟨rfl, rfl, rfl, rfl, rfl, rfl, ?_, ?_⟩
  · simp only [compressRound, temp1, temp2, BitVec.toNat_add]
    omega
  · simp only [compressRound, temp1, BitVec.toNat_add]
    omega

/-- R160: `Compress`, whose name is irreducible, written out. -/
theorem compress_eq_foldBack (h : Hash) (blk : List Byte) :
    compress h blk = foldBack h (compressRounds 64 (schedule blk) (initWork h)) := by
  rw [compress]; rfl

/-- Settles O32: the sequence is that of the rounds done so far. -/
theorem compressIsSixtyFourRoundsFoldedBack : Obligations.CompressIsSixtyFourRoundsFoldedBack := by
  intro h blk
  exact ⟨fun t => compressRounds t (schedule blk) (initWork h), rfl, fun t _ => compressRounds_succ t _ _,
    compress_eq_foldBack h blk⟩

/-- R147: the 16 schedule words from word n. -/
def scheduleWindow (blk : List Byte) (n : Nat) : List Word := ((schedule blk).drop n).take 16

/-- R141: at word 0 these are the block's words. -/
theorem scheduleWindow_zero (blk : List Byte) : scheduleWindow blk 0 = pack blk := by
  rw [scheduleWindow, List.drop_zero, ← pack_length blk]
  exact (List.prefix_iff_eq_take.mp (expand_pack_prefix_schedule (Nat.zero_le 48) blk)).symm

theorem scheduleWindow_getD {k : Nat} (hk : k < 16) (blk : List Byte) (n : Nat) :
    (scheduleWindow blk n).getD k 0 = (schedule blk).getD (n + k) 0 := by
  rw [scheduleWindow, List.getD_eq_getElem?_getD, List.getElem?_take_of_lt hk, List.getElem?_drop,
    ← List.getD_eq_getElem?_getD]

/-- R147: the new word of the window is the recurrence of R142. -/
theorem windowWord_scheduleWindow {n : Nat} (hn : n < 48) (blk : List Byte) :
    windowWord (scheduleWindow blk n) = (schedule blk).getD (n + 16) 0 := by
  rw [windowWord, scheduleWindow_getD (by decide), scheduleWindow_getD (by decide), scheduleWindow_getD (by decide),
    scheduleWindow_getD (by decide), Nat.add_zero n, schedule_getD_recurrence hn]

/-- R147: the shift with the next schedule word moves the window by one word. -/
theorem windowShift_scheduleWindow {n : Nat} (hn : n < 48) (blk : List Byte) :
    windowShift (scheduleWindow blk n) ((schedule blk).getD (n + 16) 0) = scheduleWindow blk (n + 1) := by
  have hlast : 15 < ((schedule blk).drop (n + 1)).length := by rw [List.length_drop, schedule_length]; omega
  have hnew : ((schedule blk).drop (n + 1))[15] = (schedule blk).getD (n + 16) 0 := by
    rw [List.getElem_drop, List.getD_eq_getElem _ _ (by rw [schedule_length]; omega)]
  rw [windowShift, scheduleWindow, scheduleWindow, List.drop_take, List.drop_drop, ← hnew,
    List.take_append_getElem hlast]

/-- R147, R163: the unit before round t of a block. The window stands still at the block's words through the first 16
rounds (t − 16 is 0 there) and then slides. -/
def unitBefore (h : Hash) (blk : List Byte) (t : Nat) : RoundUnit :=
  { t := t, win := scheduleWindow blk (t - 16), work := compressRounds t (schedule blk) (initWork h) }

theorem unitBefore_t (h : Hash) (blk : List Byte) (t : Nat) : (unitBefore h blk t).t = t := rfl

theorem unitBefore_win (h : Hash) (blk : List Byte) (t : Nat) :
    (unitBefore h blk t).win = scheduleWindow blk (t - 16) := by rw [unitBefore]

/-- The unit is loaded for round 0. -/
theorem unitLoad_eq_unitBefore (h : Hash) (blk : List Byte) : unitLoad h blk = unitBefore h blk 0 := by
  rw [unitLoad, unitBefore, Nat.zero_sub, scheduleWindow_zero, compressRounds_zero]

/-- R147: in the first 16 rounds the word is one of the loaded block's. -/
theorem unitWord_of_lt {u : RoundUnit} (h : u.t < 16) : unitWord u = u.win.getD u.t 0 := if_pos h

/-- R147: from round 16 on the word is the window's new one. -/
theorem unitWord_of_le {u : RoundUnit} (h : 16 ≤ u.t) : unitWord u = windowWord u.win := if_neg h.not_gt

/-- R147: in the first 16 rounds the window stays. -/
theorem unitCycle_win_of_lt {u : RoundUnit} (h : u.t < 16) : (unitCycle u).win = u.win := if_pos h

/-- R147: from round 16 on the new word is shifted in. -/
theorem unitCycle_win_of_le {u : RoundUnit} (h : 16 ≤ u.t) :
    (unitCycle u).win = windowShift u.win (windowWord u.win) := if_neg h.not_gt

/-- R147: the word the unit uses in round t is `W[t]`. -/
theorem unitWord_unitBefore {t : Nat} (ht : t < 64) (h : Hash) (blk : List Byte) :
    unitWord (unitBefore h blk t) = (schedule blk).getD t 0 := by
  rcases Nat.lt_or_ge t 16 with h16 | h16
  · rw [unitWord_of_lt (u := unitBefore h blk t) h16, unitBefore_win, unitBefore_t, scheduleWindow_getD h16,
      Nat.sub_eq_zero_of_le h16.le, Nat.zero_add]
  · rw [unitWord_of_le (u := unitBefore h blk t) h16, unitBefore_win, windowWord_scheduleWindow (by omega),
      Nat.sub_add_cancel h16]

/-- R147: the window after round t is the one before round t + 1. -/
theorem unitCycle_unitBefore_win {t : Nat} (ht : t < 64) (h : Hash) (blk : List Byte) :
    (unitCycle (unitBefore h blk t)).win = scheduleWindow blk (t + 1 - 16) := by
  rcases Nat.lt_or_ge t 16 with h16 | h16
  · rw [unitCycle_win_of_lt (u := unitBefore h blk t) h16, unitBefore_win, Nat.sub_eq_zero_of_le h16.le,
      Nat.sub_eq_zero_of_le h16]
  · rw [unitCycle_win_of_le (u := unitBefore h blk t) h16, unitBefore_win, windowWord_scheduleWindow (by omega),
      windowShift_scheduleWindow (by omega), Nat.sub_add_comm h16]

/-- R163: one cycle is one round. -/
theorem unitCycle_unitBefore {t : Nat} (ht : t < 64) (h : Hash) (blk : List Byte) :
    unitCycle (unitBefore h blk t) = unitBefore h blk (t + 1) := by
  calc unitCycle (unitBefore h blk t)
      = ⟨t + 1, (unitCycle (unitBefore h blk t)).win,
          compressRound (compressRounds t (schedule blk) (initWork h)) (roundConst t)
            (unitWord (unitBefore h blk t))⟩ := rfl
    _ = unitBefore h blk (t + 1) := by
      rw [unitWord_unitBefore ht, unitCycle_unitBefore_win ht, ← compressRounds_succ, unitBefore]

/-- The last of the cycles apart. -/
theorem unitCycles_succ (n : Nat) (u : RoundUnit) : unitCycles (n + 1) u = unitCycle (unitCycles n u) := by
  induction n generalizing u with
  | zero => rfl
  | succ n ih => exact ih (unitCycle u)

/-- R163: after t cycles the unit is before round t. -/
theorem unitCycles_unitLoad {t : Nat} (ht : t ≤ 64) (h : Hash) (blk : List Byte) :
    unitCycles t (unitLoad h blk) = unitBefore h blk t := by
  induction t with
  | zero => exact unitLoad_eq_unitBefore h blk
  | succ t ih => rw [unitCycles_succ, ih (by omega), unitCycle_unitBefore ht]

/-- Settles O33: after t cycles the unit holds the window before round t. -/
theorem slidingWindowComputesTheSchedule : Obligations.SlidingWindowComputesTheSchedule := by
  intro h blk t _ ht
  rw [unitCycles_unitLoad ht.le]
  exact ⟨fun k hk => scheduleWindow_getD hk blk (t - 16), unitWord_unitBefore ht h blk⟩

/-- Settles O34: after 64 cycles the unit holds the working variables of the 64 rounds. -/
theorem roundUnitComputesCompress : Obligations.RoundUnitComputesCompress := by
  intro h blk
  rw [compressByUnit, nRounds, unitCycles_unitLoad le_rfl, compress_eq_foldBack]
  rfl

end Sys2Proof.Machine
end

section
/-! PROOFS. The statements about finishing a message (42_finalize.md): the padded tail and the blocks it is compressed in,
the length field, and the digest string. -/

namespace Sys2Proof.Machine

/-! ## The padded tail (R181 to R185) -/

/-- R185: two blocks are compressed in order. -/
theorem compressBlocks_two {h : Hash} {p : List Byte} (hp : p.length = 128) :
    compressBlocks h p = compress (compress h (p.take 64)) (p.drop 64) := by
  have hfirst : (p.take 64).length = 64 := by rw [List.length_take]; omega
  have hsecond : (p.drop 64).length = 64 := by rw [List.length_drop]; omega
  conv => lhs; rw [← List.take_append_drop 64 p]
  rw [compressBlocks_append (by rw [hfirst]), compressBlocks_one hfirst, compressBlocks_one hsecond]

/-- R184, R185: a padded tail is one block for a tail of at most 55 bytes and two for a longer one. -/
theorem compressBlocks_pad {h : Hash} {tail : List Byte} (len : BitVec 64) (htail : tail.length ≤ 63) :
    compressBlocks h (pad tail len) =
      if tail.length ≤ 55 then compress h (pad tail len)
      else compress (compress h ((pad tail len).take 64)) ((pad tail len).drop 64) := by
  have hlen := pad_length len htail
  split
  case isTrue hle => exact compressBlocks_one (by rw [hlen, if_pos hle])
  case isFalse hgt => exact compressBlocks_two (by rw [hlen, if_neg hgt])

/-- R180: in ACCUMULATING the message is finished. -/
theorem exec_finalize_of_accumulating {s : State} (hp : s.phase = .accumulating) :
    exec .finalize s = .next (respond .none (finishMessage s)) := by
  simp [exec, execFinalize, hp]

/-- R180, R232: in FINALIZED the command is not allowed. -/
theorem exec_finalize_of_finalized {s : State} (hp : s.phase = .finalized) :
    exec .finalize s = .next (raiseFault .invalidState (opcodeByte .finalize) s) := by
  simp [exec, execFinalize, hp]

/-- R180's example: the first word of the digest of the empty message. -/
theorem finishMessage_reset_hash_w0 : (finishMessage State.reset).hash.w0 = 0xE3B0C442 := by decide +kernel

/-- Settles O14: the fill of the buffer is the length of the tail that is padded, and decides between one block and two. -/
theorem finalizeCompressesThePaddedTail : Obligations.FinalizeCompressesThePaddedTail := by
  refine ⟨rfl, fun s => ⟨fun hp => ?_, exec_finalize_of_finalized⟩,
    _, exec_finalize_of_accumulating rfl, finishMessage_reset_hash_w0, rfl, rfl⟩
  have hblocks := compressBlocks_pad (h := s.hash) (tail := memRead 0 s.bufLen.toNat s) s.len
    (by rw [memRead_length]; omega)
  rw [memRead_length] at hblocks
  rw [exec_finalize_of_accumulating hp, ← hblocks]
  rfl

/-- Settles O35: the zero fill is `(119 − r) mod 64`, and a number that fills up to 56 modulo 64 is no smaller. -/
theorem paddedTailShape : Obligations.PaddedTailShape := by
  intro tail len htail
  have hfill := zeroFill_eq htail
  refine ⟨zeroFill tail.length, rfl, ?_, fun z' hz' => ?_, hfill, rfl, pad_length len htail⟩
  · omega
  · omega

/-! ## Digits of a bit vector

The bytes of `be64bytes` and the digits of `hexWord` are fields of equal width, from the top of the value down. -/

/-- One field of `d` bits at bit `lo`, put after the bits above it. -/
theorem toNat_shiftRight_eq_append_field {n : Nat} (x : BitVec n) (lo d : Nat) :
    x.toNat >>> lo = 2 ^ d * x.toNat >>> (lo + d) + (x.extractLsb' lo d).toNat := by
  rw [BitVec.extractLsb'_toNat, Nat.shiftRight_add, Nat.shiftRight_eq_div_pow _ d, Nat.div_add_mod]

/-- The top `k` fields of `d` bits, read in base `2 ^ d` after a number `a`, write the top `d * k` bits after `a`. -/
theorem foldl_fields {n : Nat} (x : BitVec n) (d a : Nat) {k : Nat} (hk : d * k ≤ n) :
    (List.range k).foldl (fun v i => 2 ^ d * v + (x.extractLsb' (n - d * (i + 1)) d).toNat) a =
      2 ^ (d * k) * a + x.toNat >>> (n - d * k) := by
  induction k with
  | zero => simp [Nat.shiftRight_eq_div_pow, Nat.div_eq_of_lt x.isLt]
  | succ k ih =>
    rw [Nat.mul_succ] at hk
    have hlo : n - d * k = n - d * (k + 1) + d := by rw [Nat.mul_succ]; omega
    rw [List.range_succ, List.foldl_append, List.foldl_cons, List.foldl_nil, ih (by omega),
      toNat_shiftRight_eq_append_field x (n - d * (k + 1)) d, hlo, Nat.mul_succ d k, Nat.pow_add]
    ring

/-- R14: the eight bytes of a value write it in base 256. -/
theorem foldl_be64bytes (v : BitVec 64) : (be64bytes v).foldl (fun n b => 256 * n + b.toNat) 0 = v.toNat := by
  have hbytes : be64bytes v = (List.range 8).map fun i => v.extractLsb' (64 - 8 * (i + 1)) 8 := rfl
  rw [hbytes, List.foldl_map]
  exact (foldl_fields v 8 0 le_rfl).trans (Nat.zero_add _)

/-- Settles O36: eight times a length of at most 2^61 − 1 fits the 64 bits, so the field writes it exactly. -/
theorem lengthFieldIsTheBitLength : Obligations.LengthFieldIsTheBitLength := by
  intro tail len hlen
  have hbits : (len * 8).toNat = 8 * len.toNat := by bv_omega
  refine ⟨_, lengthField len, rfl, rfl, rfl, ?_, by omega, ?_⟩
  · rw [lengthField, foldl_be64bytes, hbits]
  · apply BitVec.eq_of_toNat_eq
    rw [BitVec.extractLsb'_toNat, hbits]
    exact Nat.mul_mod_right 8 _

/-! ## The digest string (R190, R195, R196) -/

/-- R195: a digit is one of the 16 lower-case ones. -/
theorem hexDigit_range (n : BitVec 4) :
    (0x30 ≤ (hexDigit n).toNat ∧ (hexDigit n).toNat ≤ 0x39) ∨
      (0x61 ≤ (hexDigit n).toNat ∧ (hexDigit n).toNat ≤ 0x66) := by
  revert n; decide

/-- R195: a digit is read back as the number it writes. -/
@[simp] theorem hexValue_hexDigit (n : BitVec 4) : hexValue (hexDigit n) = n.toNat := by revert n; decide

/-- R196: after the first three bytes stand the digits of the words. -/
@[simp] theorem digestStr_drop_three (h : Hash) : (digestStr h).drop 3 = (hashWords h).flatMap hexWord := rfl

/-- Settles O37: what follows the first three bytes is digits of the words. -/
theorem digestStringShape : Obligations.DigestStringShape := by
  intro h
  refine ⟨digestStr_length h, rfl, fun c hc => ?_⟩
  rw [digestStr_drop_three] at hc
  obtain ⟨w, -, hw⟩ := List.mem_flatMap.mp hc
  obtain ⟨k, -, rfl⟩ := List.mem_map.mp hw
  exact hexDigit_range _

/-- R196: the eight digits of a word, read after a number, write the word after it. -/
theorem foldl_hexWord (a : Nat) (w : Word) :
    (hexWord w).foldl (fun n c => 16 * n + hexValue c) a = 2 ^ 32 * a + w.toNat := by
  have hdigits : hexWord w = (List.range 8).map fun i => hexDigit (w.extractLsb' (32 - 4 * (i + 1)) 4) := rfl
  rw [hdigits, List.foldl_map]
  simp only [hexValue_hexDigit]
  exact foldl_fields w 4 a le_rfl

/-- R196: the eight digits of a word write it. -/
theorem hexNumber_hexWord (w : Word) : hexNumber (hexWord w) = w.toNat :=
  (foldl_hexWord 0 w).trans (Nat.zero_add _)

/-- The digits of words write the number that the words write in base 2^32. -/
theorem hexNumber_flatMap_hexWord (ws : List Word) :
    hexNumber (ws.flatMap hexWord) = ws.foldl (fun n w => 2 ^ 32 * n + w.toNat) 0 := by
  simp only [hexNumber, List.foldl_flatMap, foldl_hexWord]

/-- The digits of word i stand from digit 8i on. -/
theorem flatMap_hexWord_digits {ws : List Word} {i : Nat} (hi : i < ws.length) :
    ((ws.flatMap hexWord).drop (8 * i)).take 8 = hexWord ws[i] := by
  induction ws generalizing i with
  | nil => cases hi
  | cons w ws ih =>
    rw [List.flatMap_cons]
    cases i with
    | zero => exact List.take_left' (hexWord_length w)
    | succ i =>
      rw [Nat.mul_succ, Nat.add_comm, ← List.drop_drop, List.drop_left' (hexWord_length w),
        ih (Nat.lt_of_succ_lt_succ hi), List.getElem_cons_succ]

/-- A concatenation of bit vectors as a number. -/
theorem toNat_append_eq {m n : Nat} (x : BitVec m) (y : BitVec n) : (x ++ y).toNat = 2 ^ n * x.toNat + y.toNat := by
  rw [BitVec.toNat_append, ← Nat.shiftLeft_add_eq_or_of_lt y.isLt, Nat.shiftLeft_eq, Nat.mul_comm]

/-- R190: the digest value is the number that the hash words write in base 2^32, `H[0]` first. -/
theorem digestValue_toNat (h : Hash) :
    (digestValue h).toNat = (hashWords h).foldl (fun n w => 2 ^ 32 * n + w.toNat) 0 := by
  simp only [digestValue, toNat_append_eq, hashWords, List.foldl_cons, List.foldl_nil, Nat.mul_zero, Nat.zero_add]

/-- Settles O38: word by word, and the words in base 2^32. -/
theorem digestStringWritesTheHashWords : Obligations.DigestStringWritesTheHashWords := by
  intro h
  refine ⟨fun i => ?_, ?_⟩
  · have hi : i.toNat < (hashWords h).length := i.isLt
    rw [← List.drop_drop, digestStr_drop_three, flatMap_hexWord_digits hi, hexNumber_hexWord, hashWord,
      List.getD_eq_getElem _ _ hi]
  · rw [digestStr_drop_three, hexNumber_flatMap_hexWord, digestValue_toNat]

end Sys2Proof.Machine
end

section
/-! PROOFS. The statements about the read-out (43_readout.md): the three read commands in each phase, and the determinism of
a run that begins with a reset. -/

namespace Sys2Proof.Machine

/-! ## `RDWORD` (R210) -/

/-- R93, R95: the word of `RDWORD i`. -/
theorem encode_rdword (i : BitVec 3) : encode (.rdword i) = 0x600000#29 ++ i := by
  revert i; decide

/-- R232: no hash word is read before `FINALIZE`. -/
theorem exec_rdword_of_accumulating {i : BitVec 3} {s : State} (hp : s.phase = .accumulating) :
    exec (.rdword i) s = .next (raiseFault .invalidState opcRdword s) := by
  simp [exec, execRdword, hp, opcodeByte]

/-- R210: `H[i]`, index by index. -/
theorem hashWord_eq_ite (h : Hash) (i : BitVec 3) :
    hashWord h i = if i = 0 then h.w0 else if i = 1 then h.w1 else if i = 2 then h.w2 else if i = 3 then h.w3
      else if i = 4 then h.w4 else if i = 5 then h.w5 else if i = 6 then h.w6 else h.w7 := by
  have hi : i = 0 ∨ i = 1 ∨ i = 2 ∨ i = 3 ∨ i = 4 ∨ i = 5 ∨ i = 6 ∨ i = 7 := by revert i; decide
  rcases hi with rfl | rfl | rfl | rfl | rfl | rfl | rfl | rfl <;> rfl

/-- R210's example: the first and the last word of the digest of "abc". -/
theorem hashWord_messageDigest_abc :
    hashWord (messageDigest [0x61, 0x62, 0x63]) 0 = 0xBA7816BF ∧
      hashWord (messageDigest [0x61, 0x62, 0x63]) 7 = 0xF20015AD := by decide +kernel

/-- Settles O15: the response is `H[i]` in FINALIZED, and fault entry answers in ACCUMULATING. -/
theorem rdwordReadsOneHashWord : Obligations.RdwordReadsOneHashWord := by
  refine ⟨fun i s => ⟨?_, fun hp => ⟨_, exec_rdword_of_finalized hp, hashWord_eq_ite s.hash i⟩,
    exec_rdword_of_accumulating⟩, fun s hp hhash => ?_⟩
  · rw [← encode_rdword]
    exact decodeOfEncodeIsTheCommand _ rfl
  · obtain ⟨hfirst, hlast⟩ := hashWord_messageDigest_abc
    rw [← hhash] at hfirst hlast
    rw [exec_rdword_of_finalized hp, exec_rdword_of_finalized hp, hfirst, hlast]
    exact ⟨rfl, rfl⟩

/-! ## `RDCHAR` (R212) -/

/-- R93, R95: the word of `RDCHAR j`. -/
theorem encode_rdchar (j : Byte) : encode (.rdchar j) = 0x040000#24 ++ j := by
  have hfields : opcRdchar ++ 0#16 = 0x040000#24 := by decide
  rw [← hfields]
  rfl

/-- R232: no byte of the digest string is read before `FINALIZE`. -/
theorem exec_rdchar_of_accumulating {j : Byte} {s : State} (hj : (Instr.rdchar j).WellFormed)
    (hp : s.phase = .accumulating) : exec (.rdchar j) s = .next (raiseFault .invalidState opcRdchar s) := by
  have hlegal : charIndexLegal j = true := hj
  simp [exec, execRdchar, hp, hlegal, opcodeByte]

/-- R195: the two runs of ASCII codes that the digits take. -/
theorem hexDigit_toNat (n : BitVec 4) :
    (hexDigit n).toNat = if n.toNat ≤ 9 then 0x30 + n.toNat else 0x61 + (n.toNat - 10) := by
  revert n; decide

/-- R196: digit k of a word is that of its bits 31−4k : 28−4k. -/
theorem hexWord_getElem? {k : Nat} (hk : k < 8) (w : Word) :
    (hexWord w)[k]? = some (hexDigit (w.extractLsb' (28 - 4 * k) 4)) := by
  simp [hexWord, hk]

/-- R196: a byte of the digest string at a legal index. -/
theorem digestStr_getElem? {j : Byte} (hj : j.toNat ≤ 66) (h : Hash) :
    (digestStr h)[j.toNat]? = some (digestChar h j) := by
  have hlen : j.toNat < (digestStr h).length := by rw [digestStr_length]; omega
  rw [digestChar, List.getD_eq_getElem _ _ hlen, List.getElem?_eq_getElem hlen]

/-- R196: byte 3 + 8i + k of the digest string is digit k of word i. -/
theorem digestStr_getElem?_digit {k : Nat} (hk : k < 8) (i : BitVec 3) (h : Hash) :
    (digestStr h)[3 + 8 * i.toNat + k]? = some (hexDigit ((hashWord h i).extractLsb' (28 - 4 * k) 4)) := by
  have hi : i.toNat < (hashWords h).length := i.isLt
  rw [← List.getElem?_drop, ← List.getElem?_take_of_lt hk, ← List.drop_drop, digestStr_drop_three,
    flatMap_hexWord_digits hi, hexWord_getElem? hk, hashWord, List.getD_eq_getElem _ _ hi]

/-- R212's example: the first and the last digit of the digest of the empty message. -/
theorem digestChar_messageDigest_nil :
    digestChar (messageDigest []) 3 = 0x65 ∧ digestChar (messageDigest []) 66 = 0x35 := by decide +kernel

/-- Settles O16: the response is a byte of the digest string: one of its first three, or a digit of a hash word. -/
theorem rdcharReadsOneDigestByte : Obligations.RdcharReadsOneDigestByte := by
  refine ⟨fun j s hj => ?_, fun s hp hhash => ?_⟩
  · have hwf : (Instr.rdchar j).WellFormed := wellFormed_rdchar_iff.mpr hj
    refine ⟨?_, fun hp => ⟨digestChar s.hash j, exec_rdchar_of_finalized hwf hp, digestStr_getElem? hj s.hash,
      ?_, ?_, ?_, fun i k hk hjk => ?_⟩, exec_rdchar_of_accumulating hwf⟩
    · rw [← encode_rdchar]
      exact decodeOfEncodeIsTheCommand _ hwf
    · rintro rfl; rfl
    · rintro rfl; rfl
    · rintro rfl; rfl
    · have hbyte := digestStr_getElem? hj s.hash
      rw [hjk, digestStr_getElem?_digit hk] at hbyte
      rw [← Option.some.inj hbyte, hexDigit_toNat]
  · obtain ⟨hfirst, hlast⟩ := digestChar_messageDigest_nil
    rw [← hhash] at hfirst hlast
    rw [exec_rdchar_of_finalized rfl hp, exec_rdchar_of_finalized rfl hp, hfirst, hlast]
    exact ⟨rfl, rfl⟩

/-! ## `RDSTAT` (R214) -/

/-- R38: the fields of the status register. -/
theorem statusWord_fields (s : State) :
    (statusWord s).extractLsb' 0 2 = phaseBits s.phase ∧ (statusWord s).extractLsb' 2 2 = 0 ∧
      (statusWord s).extractLsb' 4 4 = s.faultCode ∧ (statusWord s).extractLsb' 8 6 = s.bufLen ∧
      (statusWord s).extractLsb' 14 2 = 0 ∧ (statusWord s).extractLsb' 16 8 = s.faultOpc ∧
      (statusWord s).extractLsb' 24 8 = 0 := by
  simp (disch := omega) only [statusWord, BitVec.extractLsb'_append_eq_right, BitVec.extractLsb'_append_eq_of_le,
    Nat.reduceSub, BitVec.ofNat_eq_ofNat, BitVec.extractLsb'_eq_self, and_self]

/-- R38: the values of `STATUS.PHASE`. -/
theorem phaseBits_eq_ite (p : Phase) :
    phaseBits p = if p = .accumulating then 0#2 else if p = .finalized then 1#2 else 2#2 := by
  cases p <;> rfl

/-- R38: `STATUS.PHASE` is never 3. -/
theorem phaseBits_ne_three (p : Phase) : phaseBits p ≠ 3#2 := by cases p <;> decide

/-- R214: in every phase the response is the status register. -/
theorem exec_rdstat (s : State) : exec .rdstat s = .next (respond (.word (statusWord s)) s) := rfl

/-- A run of commands takes the first and goes on with the others from the state after it. -/
theorem runEvents_commandEvents_cons {i : Instr} {is : List Instr} {s s' : State} (hi : i.WellFormed)
    (h : exec i s = .next s') : runEvents (commandEvents (i :: is)) s = runEvents (commandEvents is) s' := by
  have htake : takeEvent (.command (encode i)) s = .next s' :=
    (runWord_of_ok (decodeOfEncodeIsTheCommand i hi)).trans h
  exact (runEvents_cons (takeEvent_with_input _ htake)).trans (runEvents_with_input _ _ s')

/-- A run that begins with `RDSTAT`. -/
theorem runEvents_rdstat_cons (is : List Instr) (s : State) :
    runEvents (commandEvents (.rdstat :: is)) s = runEvents (commandEvents is) (respond (.word (statusWord s)) s) :=
  runEvents_commandEvents_cons rfl (exec_rdstat s)

/-- A run that begins with an `INGEST` that is taken. -/
theorem runEvents_ingest_cons {b : Byte} {is : List Instr} {s : State} (hp : s.phase = .accumulating)
    (hl : s.len ≠ maxLen) :
    runEvents (commandEvents (.ingest b :: is)) s = runEvents (commandEvents is) (respond .none (appendByte b s)) :=
  runEvents_commandEvents_cons rfl (exec_ingest_of_accumulating hp hl)

/-- R214's example: the status before and after three bytes, after `FINALIZE`, and after a second `FINALIZE`. -/
theorem statusRun_responses (a b c : Byte) : ∃ t : State,
    runEvents (commandEvents [.rdstat, .ingest a, .ingest b, .ingest c, .rdstat, .finalize, .rdstat, .finalize, .rdstat])
      State.reset = .next t ∧
    t.responses = [.word 0x00000000, .none, .none, .none, .word 0x00000300, .none, .word 0x00000001, .none,
      .word 0x00020022] := by
  rw [runEvents_rdstat_cons,
    runEvents_ingest_cons rfl (by simp [State.reset, maxLen]),
    runEvents_ingest_cons (by simp [State.reset]) (by simp [State.reset, maxLen]),
    runEvents_ingest_cons (by simp [State.reset]) (by simp [State.reset, maxLen]),
    runEvents_rdstat_cons,
    runEvents_commandEvents_cons rfl (exec_finalize_of_accumulating (by simp [State.reset])),
    runEvents_rdstat_cons,
    runEvents_commandEvents_cons rfl (exec_finalize_of_finalized rfl),
    runEvents_rdstat_cons]
  refine ⟨_, runEvents_nil _, ?_⟩
  simp [statusWord, phaseBits, causeCode, opcodeByte, opcFinalize, State.reset]

/-- Settles O17: the response is the status register, whose fields are those of R38; the invariant bounds
`FAULT_CODE` and gives `BUF_LEN` from `LEN` and the phase. -/
theorem rdstatReadsTheStatus : Obligations.RdstatReadsTheStatus := by
  refine ⟨rfl, fun s => ⟨statusWord s, exec_rdstat s, ?_⟩, statusRun_responses⟩
  obtain ⟨hphase, hlow, hcode, hfill, hmid, hopc, htop⟩ := statusWord_fields s
  obtain ⟨-, -, -, -, -, -, hzero⟩ := resetStateHoldsTheRulesValues
  rw [hphase, hcode, hfill]
  refine ⟨phaseBits_eq_ite s.phase, hlow, rfl, rfl, hmid, hopc, htop, phaseBits_ne_three s.phase, ?_, ?_⟩
  · rintro rfl
    exact hzero
  · rintro ⟨-, -, hle, -, hacc, hfin⟩
    exact ⟨hle, hacc, hfin⟩

/-! ## Determinism (R218) -/

/-- R260: a run that begins with a reset is the run of the other events from the reset state. -/
theorem runEvents_reset_cons (es : List HostEvent) (s : State) :
    runEvents (.reset :: es) s = runEvents es State.reset :=
  (runEvents_cons rfl).trans (runEvents_with_input es es State.reset)

/-- Settles O27: both runs are the one from the reset state. -/
theorem resetEnginesAreIndistinguishable : Obligations.ResetEnginesAreIndistinguishable := by
  intro s t es
  rw [runEvents_reset_cons, runEvents_reset_cons]

end Sys2Proof.Machine
end

section
/-! PROOFS. The statements about faults and several engines (60_exceptions.md): which fault a word takes, what fault entry
leaves unchanged, that phase FAULT is kept by every word, and that a step of one engine is that engine's alone. -/

namespace Sys2Proof.Machine

/-! ## Illegal words (R231) -/

/-- Settles O8: the step takes the word, and an illegal word enters phase FAULT or, in it, responds NONE. -/
theorem illegalWordFaultsOrIsIgnored : Obligations.IllegalWordFaultsOrIsIgnored := by
  intro s w rest e hin hd
  have hstep : step s = .next (illegalCommand (opcOf w) { s with input := rest }) :=
    (step_of_input hin).trans (runWord_of_error hd)
  rw [hstep]
  split
  case isTrue hp => rw [illegalCommand_of_fault (s := { s with input := rest }) hp]; rfl
  case isFalse hp => rw [illegalCommand_of_not_fault (s := { s with input := rest }) hp]; rfl

/-! ## Fault entry (R238, R240) -/

/-- R232: the commands that a phase does not allow. -/
def DisallowedIn (p : Phase) (i : Instr) : Prop :=
  (p = .finalized ∧ ((∃ b, i = .ingest b) ∨ i = .finalize)) ∨
    (p = .accumulating ∧ ((∃ k, i = .rdword k) ∨ ∃ j, i = .rdchar j))

/-- R232: a command that the phase does not allow raises INVALID_STATE. -/
theorem exec_of_disallowed {i : Instr} {s : State} (hwf : i.WellFormed) (h : DisallowedIn s.phase i) :
    exec i s = .next (raiseFault .invalidState (opcodeByte i) s) := by
  rcases h with ⟨hp, ⟨b, rfl⟩ | rfl⟩ | ⟨hp, ⟨k, rfl⟩ | ⟨j, rfl⟩⟩
  · exact exec_ingest_of_finalized hp
  · exact exec_finalize_of_finalized hp
  · exact exec_rdword_of_accumulating hp
  · exact exec_rdchar_of_accumulating hwf hp

/-- Outside phase FAULT, a phase that allows `INGEST` or `FINALIZE` is ACCUMULATING. -/
theorem accumulating_of_allowed {p : Phase} {i : Instr} (hp : p ≠ .fault) (h : ¬ DisallowedIn p i)
    (hi : (∃ b, i = .ingest b) ∨ i = .finalize) : p = .accumulating := by
  cases p with
  | accumulating => rfl
  | finalized => exact absurd (.inl ⟨rfl, hi⟩) h
  | fault => exact absurd rfl hp

/-- Outside phase FAULT, a phase that allows `RDWORD` or `RDCHAR` is FINALIZED. -/
theorem finalized_of_allowed {p : Phase} {i : Instr} (hp : p ≠ .fault) (h : ¬ DisallowedIn p i)
    (hi : (∃ k, i = .rdword k) ∨ ∃ j, i = .rdchar j) : p = .finalized := by
  cases p with
  | accumulating => exact absurd (.inr ⟨rfl, hi⟩) h
  | finalized => rfl
  | fault => exact absurd rfl hp

/-- R238: a command that the phase allows, and that is no `INGEST` at the limit, takes no fault. -/
theorem exec_of_allowed {i : Instr} {s s' : State} (hexec : exec i s = .next s') (hwf : i.WellFormed)
    (hp : s.phase ≠ .fault) (hallowed : ¬ DisallowedIn s.phase i)
    (hlimit : ¬ ((∃ b, i = .ingest b) ∧ s.len = maxLen)) : s'.phase ≠ .fault ∧ s'.faultCode = s.faultCode := by
  cases i with
  | ingest b =>
    have hacc := accumulating_of_allowed hp hallowed (.inl ⟨b, rfl⟩)
    rw [exec_ingest_of_accumulating hacc fun hl => hlimit ⟨⟨b, rfl⟩, hl⟩] at hexec
    cases hexec
    simp [hp]
  | finalize =>
    rw [exec_finalize_of_accumulating (accumulating_of_allowed hp hallowed (.inr rfl))] at hexec
    cases hexec
    simp
  | rdword k =>
    rw [exec_rdword_of_finalized (finalized_of_allowed hp hallowed (.inl ⟨k, rfl⟩))] at hexec
    cases hexec
    exact ⟨hp, rfl⟩
  | rdchar j =>
    rw [exec_rdchar_of_finalized hwf (finalized_of_allowed hp hallowed (.inr ⟨j, rfl⟩))] at hexec
    cases hexec
    exact ⟨hp, rfl⟩
  | rdstat =>
    cases hexec
    exact ⟨hp, rfl⟩

/-- Settles O20: of the outcomes of a word outside phase FAULT only fault entry ends in it. -/
theorem faultEntryIsPrecise : Obligations.FaultEntryIsPrecise := by
  intro w s s' hexec hp hp'
  rcases hexec.next with ⟨hf, -, -⟩ | ⟨-, c, rfl⟩ | ⟨-, -, b, -, rfl⟩ | ⟨-, -, rfl⟩ | ⟨-, k, -, rfl⟩ | ⟨-, j, -, rfl⟩ |
    ⟨-, rfl⟩
  · exact absurd hf hp
  · exact ⟨by cases c <;> simp [causeCode], rfl⟩
  · exact absurd (by simpa using hp') hp
  · simp at hp'
  · exact absurd hp' hp
  · exact absurd hp' hp
  · exact absurd hp' hp

/-! ## Phase FAULT (R241, R243) -/

/-- R241: in phase FAULT a word responds, `RDSTAT` the status and every other NONE, and does nothing else. -/
theorem runWord_of_fault {w : Word} {s : State} (hp : s.phase = .fault) :
    runWord w s = .next (respond (if w = 0x05000000 then .word (statusWord s) else .none) s) := by
  have hrdstat : decode w = .ok .rdstat ↔ w = 0x05000000 :=
    decode_eq_ok_iff.trans ((and_iff_left rfl).trans eq_comm)
  obtain ⟨s', hrun⟩ := runWord_completes w s
  rw [hrun]
  rcases runWord_next hrun with ⟨-, hd, rfl⟩ | ⟨hne, -⟩ | ⟨hacc, -⟩ | ⟨hacc, -⟩ | ⟨hfin, -⟩ | ⟨hfin, -⟩ | ⟨hd, rfl⟩
  · rw [if_neg (mt hrdstat.mpr hd)]; rfl
  · exact absurd hp hne
  · simp [hp] at hacc
  · simp [hp] at hacc
  · simp [hp] at hfin
  · simp [hp] at hfin
  · rw [if_pos (hrdstat.mp hd)]

/-- Settles O21: the word is taken and run. -/
theorem faultPhaseExecutesOnlyRdstat : Obligations.FaultPhaseExecutesOnlyRdstat := by
  intro w s s' hexec hp
  have hrun := hexec.runWord
  rw [runWord_of_fault (s := { s with input := s.input.tail }) hp] at hrun
  cases hrun
  rfl

/-- Settles O19: decoding comes first, then the phase, then the limit of the length. -/
theorem atMostOneFaultInTheRulesOrder : Obligations.AtMostOneFaultInTheRulesOrder := by
  intro w s s' hexec
  refine ⟨fun hp => ?_, fun hp => ?_⟩
  · rw [faultPhaseExecutesOnlyRdstat w s s' hexec hp]
    exact ⟨hp, rfl, rfl⟩
  have hrun := hexec.runWord
  cases hd : decode w with
  | error e =>
    rw [runWord_of_error hd, illegalCommand_of_not_fault (s := { s with input := s.input.tail }) hp] at hrun
    cases hrun
    exact ⟨rfl, rfl, rfl⟩
  | ok i =>
    obtain ⟨-, hopc, -, hwf⟩ := decode_ok_fields hd
    have hopc' : w.extractLsb' 24 8 = opcodeByte i := hopc
    rw [runWord_of_ok hd] at hrun
    simp only [hopc']
    split_ifs with hdis hlimit
    · rw [exec_of_disallowed (s := { s with input := s.input.tail }) hwf hdis] at hrun
      cases hrun
      exact ⟨rfl, rfl, rfl⟩
    · obtain ⟨⟨b, rfl⟩, hl⟩ := hlimit
      have hacc := accumulating_of_allowed hp hdis (.inl ⟨b, rfl⟩)
      rw [exec_ingest_of_limit (s := { s with input := s.input.tail }) hacc hl] at hrun
      cases hrun
      exact ⟨rfl, rfl, rfl⟩
    · exact exec_of_allowed (s := { s with input := s.input.tail }) hrun hwf hp hdis hlimit

/-- R243: command words presented in phase FAULT add responses and do nothing else. -/
theorem runEvents_commands_of_fault {ws : List Word} {s t : State} (hp : s.phase = .fault)
    (hrun : runEvents (ws.map .command) s = .next t) : t = { s with input := [], responses := t.responses } := by
  induction ws generalizing s with
  | nil => cases hrun; rfl
  | cons w ws ih =>
    have htake := takeEvent_with_input (e := .command w) (ws.map .command) (runWord_of_fault (w := w) hp)
    rw [List.map_cons, runEvents_cons htake, runEvents_with_input] at hrun
    exact ih (s := respond _ s) hp hrun

/-- Settles O23: the state at the end differs in the port's record alone. -/
theorem firstFaultStaysToTheEndOfTheRun : Obligations.FirstFaultStaysToTheEndOfTheRun := by
  intro ws s t hp hrun
  rw [runEvents_commands_of_fault hp hrun]
  exact ⟨by simp [Successful, hp], hp, rfl, rfl, rfl, rfl, rfl, rfl⟩

/-! ## Several engines (R250) -/

/-- With no engine k there is nothing to step. -/
theorem stepEngine_of_none {k : Nat} {es : List State} (hk : es[k]? = none) : stepEngine k es = .next es := by
  simp only [stepEngine, hk]

/-- R250: a step of engine k replaces its state by that of its own step. -/
theorem stepEngine_of_step {k : Nat} {es : List State} {s s' : State} (hk : es[k]? = some s)
    (hstep : step s = .next s') : stepEngine k es = .next (es.set k s') := by
  simp only [stepEngine, hk, hstep]

/-- Settles O48: the list is kept where there is no engine k, and otherwise its entry k is replaced. -/
theorem enginesShareNothing : Obligations.EnginesShareNothing := by
  intro k es es' h
  cases hk : es[k]? with
  | none =>
    rw [stepEngine_of_none hk] at h
    cases h
    exact ⟨rfl, fun _ _ => rfl, by simp⟩
  | some s =>
    obtain ⟨s', hstep, -⟩ := everyStepCompletes s
    rw [stepEngine_of_step hk hstep] at h
    cases h
    refine ⟨List.length_set, fun j hj => List.getElem?_set_ne hj.symm, fun t ht => ?_⟩
    obtain rfl := Option.some.inj ht
    obtain ⟨hlt, -⟩ := List.getElem?_eq_some_iff.mp hk
    exact ⟨s', hstep, List.getElem?_set_self hlt⟩

end Sys2Proof.Machine
end

section
/-! PROOFS. The statements about the reset input and the host's protocol (70_reset_and_hazards.md): the registers after a
reset, and what the call `hash(M)` returns. -/

namespace Sys2Proof.Machine

/-- Settles O25: the step takes the reset, whose registers are the reset values. -/
theorem resetInputWorksInEveryPhase : Obligations.ResetInputWorksInEveryPhase := by
  intro s rest hin
  exact ⟨hardwareReset { s with input := rest }, step_of_input hin, rfl, rfl, rfl, rfl, rfl, rfl, rfl⟩

/-! ## The protocol of `hash(M)` (R216, R266) -/

/-- R34: a message that may still grow by a byte leaves `LEN` below its limit. -/
protected theorem Represents.len_ne_maxLen {m : List Byte} {s : State} (h : Represents m s)
    (hm : m.length < 2 ^ 61 - 1) : s.len ≠ maxLen := by
  obtain ⟨hlen, -⟩ := h
  intro hmax
  rw [hmax] at hlen
  exact hm.ne hlen.symm

/-- R122: the call `ingest(bs)` extends the message by `bs`, each byte answered NONE, while the length stays in bounds. -/
theorem runEvents_ingestCall {m bs : List Byte} {s : State} (hwf : Memory.wf s.buf = true) (hp : s.phase = .accumulating)
    (h : Represents m s) (hmax : m.length + bs.length ≤ 2 ^ 61 - 1) :
    ∃ t, runEvents (commandEvents (ingestCall bs)) s = .next t ∧ t.phase = .accumulating ∧ Represents (m ++ bs) t ∧
      t.responses = s.responses ++ List.replicate bs.length .none := by
  induction bs generalizing m s with
  | nil => exact ⟨_, runEvents_nil s, hp, by simpa using h.withInput [], by simp⟩
  | cons b bs ih =>
    rw [List.length_cons] at hmax
    have hl : s.len ≠ maxLen := h.len_ne_maxLen (by omega)
    obtain ⟨t, hrun, htp, hrep, hresp⟩ := ih (m := m ++ [b]) (s := respond .none (appendByte b s))
      (by rw [respond_buf, appendByte_buf]; exact Memory.write_wf hwf s.bufLen.isLt)
      (by rw [respond_phase, appendByte_phase, hp])
      ((h.appendByte hwf hp hl).respond .none)
      (by rw [List.length_append, List.length_singleton]; omega)
    refine ⟨t, (runEvents_ingest_cons hp hl).trans hrun, htp, by simpa using hrep, ?_⟩
    rw [hresp, respond_responses, appendByte_responses, List.append_assoc, List.length_cons, List.replicate_succ]
    rfl

/-- R212: in FINALIZED, `RDCHAR` at legal indices answers those bytes of the digest string and changes nothing else. -/
theorem runEvents_rdchars {js : List Byte} {s : State} (hjs : ∀ j ∈ js, (Instr.rdchar j).WellFormed)
    (hp : s.phase = .finalized) :
    runEvents (commandEvents (js.map .rdchar)) s =
      .next { s with input := [], responses := s.responses ++ js.map fun j => .byte (digestChar s.hash j) } := by
  induction js generalizing s with
  | nil => simp [commandEvents]
  | cons j js ih =>
    obtain ⟨hj, hjs⟩ := List.forall_mem_cons.mp hjs
    rw [List.map_cons, runEvents_commandEvents_cons hj (exec_rdchar_of_finalized hj hp),
      ih (s := respond (.byte (digestChar s.hash j)) s) hjs hp]
    simp [respond]

/-- The indices that `RDDIGEST` reads, 0 to 66. -/
def digestIndices : List Byte := (List.range 67).map (BitVec.ofNat 8)

/-- R103: `RDDIGEST` is `RDCHAR` at each of the indices. -/
theorem rdDigest_eq : rdDigest = digestIndices.map .rdchar := by
  rw [rdDigest, digestIndices, List.map_map]
  rfl

/-- R95: each of the indices is legal. -/
theorem wellFormed_of_mem_digestIndices : ∀ j ∈ digestIndices, (Instr.rdchar j).WellFormed := by decide

/-- R196: the bytes at the indices, in order, are the digest string. -/
theorem map_digestChar_digestIndices (h : Hash) : digestIndices.map (digestChar h) = digestStr h := by
  refine List.ext_getElem? fun k => ?_
  by_cases hk : k < 67
  · have hj : (BitVec.ofNat 8 k).toNat = k := by rw [BitVec.toNat_ofNat]; omega
    have hchar := digestStr_getElem? (j := BitVec.ofNat 8 k) (by omega) h
    rw [hj] at hchar
    rw [hchar]
    simp [digestIndices, hk]
  · rw [List.getElem?_eq_none (by simpa [digestIndices] using hk), List.getElem?_eq_none (by simpa using hk)]

/-- R103: in FINALIZED, `RDDIGEST` answers the digest string and changes nothing else. -/
theorem runEvents_rdDigest {s : State} (hp : s.phase = .finalized) :
    runEvents (commandEvents rdDigest) s =
      .next { s with input := [], responses := s.responses ++ (digestStr s.hash).map .byte } := by
  rw [rdDigest_eq, runEvents_rdchars wellFormed_of_mem_digestIndices hp, ← map_digestChar_digestIndices, List.map_map]
  rfl

/-- R216: the call `finalize()` leaves the digest of the message in `H` and answers NONE and the digest string. -/
theorem runEvents_finalizeCall {m : List Byte} {s : State} (hp : s.phase = .accumulating) (h : Represents m s) :
    ∃ t, runEvents (commandEvents finalizeCall) s = .next t ∧ t.phase = .finalized ∧ t.hash = messageDigest m ∧
      t.responses = s.responses ++ .none :: (digestStr (messageDigest m)).map .byte := by
  obtain ⟨-, -, -, hhash⟩ := (represents_of_finalized rfl).mp (h.finishMessage hp)
  rw [finalizeCall, runEvents_commandEvents_cons rfl (exec_finalize_of_accumulating hp), runEvents_rdDigest rfl]
  exact ⟨_, rfl, rfl, hhash, by simp [-finishMessage_hash, hhash]⟩

/-- The events of one list of commands after another. -/
theorem commandEvents_append (is is' : List Instr) :
    commandEvents (is ++ is') = commandEvents is ++ commandEvents is' := List.map_append

/-- Settles O45: the run is that of `ingest(m)` from the reset state, which has taken in the empty message, and then of
`finalize()`. -/
theorem hashProtocolReturnsTheDigest : Obligations.HashProtocolReturnsTheDigest := by
  intro m s hmax
  obtain ⟨u, hingest, hup, hrep, hnone⟩ := runEvents_ingestCall (bs := m) State.reset_wf rfl
    resetStateRepresentsTheEmptyMessage (by simpa using hmax)
  obtain ⟨t, hfinal, htp, hhash, hresp⟩ := runEvents_finalizeCall hup hrep
  refine ⟨t, ?_, htp, hhash, ?_⟩
  · rw [hashEvents, runEvents_reset_cons, hashCall, commandEvents_append, runEvents_append hingest, hfinal]
  · rw [hresp, hnone, List.replicate_succ', List.append_assoc, List.append_assoc]
    rfl

end Sys2Proof.Machine
end

section
/-! PROOFS. The statements about what a step does not depend on: an idle step, a reset received during a command, and the
cells of the pending buffer at index `BUF_LEN` and above (10_state.md R32, R47). -/

namespace Sys2Proof.Machine

/-! ## Waiting and resets (R254, R262) -/

/-- Settles O11: there is nothing to take. -/
theorem idleEngineHoldsItsState : Obligations.IdleEngineHoldsItsState := by
  intro s hin
  simp only [step, portStep, hin]

/-- R260, R262: a reset, received during a word or not, leaves the reset state and what the host has yet to present. -/
theorem step_of_reset {s : State} {e : HostEvent} {rest : List HostEvent} (hin : s.input = e :: rest)
    (he : e = .reset ∨ ∃ w, e = .resetDuring w) : step s = .next { State.reset with input := rest } := by
  rcases he with rfl | ⟨w, rfl⟩
  · exact step_of_input hin
  · exact step_of_input hin

/-- Settles O26: the reset still waits after the word, and both resets leave the reset state. -/
theorem resetDuringACommandIsAReset : Obligations.ResetDuringACommandIsAReset := by
  intro s t w rest hin hword
  have htin : t.input = .reset :: rest := takeEvent_input ((step_of_input rfl).symm.trans hword)
  have hs : step s = .next { State.reset with input := rest } := step_of_reset hin (.inr ⟨w, rfl⟩)
  have ht : step t = .next { State.reset with input := rest } := step_of_reset htin (.inl rfl)
  exact ⟨hs.trans ht.symm, _, hs, rfl⟩

/-! ## Cells at index `BUF_LEN` and above (R32, R47)

Two states that agree but for those cells answer one event with states that do so again: each operation keeps the
agreement, and the commands are chosen by what the two states have in common. -/

namespace AgreeOnValid

variable {s t : State}

/-- What two such states have in common. -/
protected theorem phase (h : AgreeOnValid s t) : t.phase = s.phase := by rw [h.1]
protected theorem bufLen (h : AgreeOnValid s t) : t.bufLen = s.bufLen := by rw [h.1]
protected theorem len (h : AgreeOnValid s t) : t.len = s.len := by rw [h.1]
protected theorem hash (h : AgreeOnValid s t) : t.hash = s.hash := by rw [h.1]
protected theorem input (h : AgreeOnValid s t) : t.input = s.input := by rw [h.1]
protected theorem statusWord (h : AgreeOnValid s t) : statusWord t = statusWord s := by rw [h.1]; rfl

/-- R32: the valid bytes of the buffer are the same. -/
theorem memRead_valid (h : AgreeOnValid s t) : memRead 0 s.bufLen.toNat t = memRead 0 s.bufLen.toNat s :=
  memRead_congr fun i hi => by simpa using h.2 i hi

/-- What waits at the port does not matter. -/
protected theorem withInput (h : AgreeOnValid s t) (es : List HostEvent) :
    AgreeOnValid { s with input := es } { t with input := es } :=
  ⟨congrArg (fun u : State => { u with input := es }) h.1, h.2⟩

/-- The same response to both. -/
protected theorem respond {r r' : Response} (h : AgreeOnValid s t) (hr : r' = r) :
    AgreeOnValid (respond r s) (respond r' t) := by
  subst hr
  exact ⟨congrArg (Machine.respond r') h.1, h.2⟩

/-- R240: the same fault in both. -/
protected theorem raiseFault (h : AgreeOnValid s t) (c : FaultCause) (o : Byte) :
    AgreeOnValid (raiseFault c o s) (raiseFault c o t) :=
  ⟨congrArg (Machine.raiseFault c o) h.1, h.2⟩

/-- R260: after a reset the two states are one. -/
protected theorem hardwareReset (h : AgreeOnValid s t) : AgreeOnValid (hardwareReset s) (hardwareReset t) :=
  ⟨by rw [h.1]; rfl, fun _ _ => rfl⟩

/-- R180: the valid bytes are all that `FINALIZE` reads of the buffer, and after it no cell is valid. -/
protected theorem finishMessage (h : AgreeOnValid s t) : AgreeOnValid (finishMessage s) (finishMessage t) := by
  refine ⟨?_, fun a ha => absurd ha a.not_lt_zero⟩
  rw [Machine.finishMessage, h.bufLen, h.memRead_valid, h.hash, h.len, h.1]
  rfl

/-- R120: below a complete block, the cell that becomes valid holds the byte stored, in both. -/
protected theorem storeByte {b : Byte} (h : AgreeOnValid s t) (hs : Memory.wf s.buf = true)
    (ht : Memory.wf t.buf = true) : AgreeOnValid (storeByte b s) (storeByte b t) := by
  refine ⟨by rw [Machine.storeByte, memWrite, h.bufLen, h.len, h.1]; rfl, fun a ha => ?_⟩
  rw [storeByte_buf, storeByte_buf, h.bufLen]
  by_cases heq : a = s.bufLen.toNat
  · rw [heq, Memory.read_write_same ht, Memory.read_write_same hs]
  · rw [Memory.read_write_other heq, Memory.read_write_other heq]
    refine h.2 a ?_
    rw [storeByte_bufLen] at ha
    bv_omega

/-- R120, R124: a block is the 63 valid bytes and the byte that completes it, and after it no cell is valid. -/
protected theorem appendByte {b : Byte} (h : AgreeOnValid s t) (hs : Memory.wf s.buf = true)
    (ht : Memory.wf t.buf = true) : AgreeOnValid (appendByte b s) (appendByte b t) := by
  by_cases hfull : s.bufLen = 63
  · have hvalid : memRead 0 63 t = memRead 0 63 s := by simpa [hfull] using h.memRead_valid
    rw [appendByte_complete_eq hs hfull, appendByte_complete_eq ht (h.bufLen.trans hfull), hvalid, h.hash, h.len]
    exact ⟨by rw [h.1], fun a ha => absurd ha a.not_lt_zero⟩
  · rw [appendByte_within hfull, appendByte_within (h.bufLen ▸ hfull)]
    exact h.storeByte hs ht

/-- R47: outside phase FAULT the two states take a command the same way. -/
theorem exec_agree {i : Instr} (h : AgreeOnValid s t) (hs : Memory.wf s.buf = true) (ht : Memory.wf t.buf = true)
    (hwf : i.WellFormed) (hp : s.phase ≠ .fault) :
    ∃ s' t', exec i s = .next s' ∧ exec i t = .next t' ∧ AgreeOnValid s' t' := by
  by_cases hdis : DisallowedIn s.phase i
  · exact ⟨_, _, exec_of_disallowed hwf hdis, exec_of_disallowed hwf (h.phase.symm ▸ hdis), h.raiseFault _ _⟩
  cases i with
  | ingest b =>
    have hacc := accumulating_of_allowed hp hdis (.inl ⟨b, rfl⟩)
    by_cases hl : s.len = maxLen
    · exact ⟨_, _, exec_ingest_of_limit hacc hl, exec_ingest_of_limit (h.phase.trans hacc) (h.len.trans hl),
        h.raiseFault _ _⟩
    · exact ⟨_, _, exec_ingest_of_accumulating hacc hl,
        exec_ingest_of_accumulating (h.phase.trans hacc) (h.len.symm ▸ hl), (h.appendByte hs ht).respond rfl⟩
  | finalize =>
    have hacc := accumulating_of_allowed hp hdis (.inr rfl)
    exact ⟨_, _, exec_finalize_of_accumulating hacc, exec_finalize_of_accumulating (h.phase.trans hacc),
      h.finishMessage.respond rfl⟩
  | rdword k =>
    have hfin := finalized_of_allowed hp hdis (.inl ⟨k, rfl⟩)
    exact ⟨_, _, exec_rdword_of_finalized hfin, exec_rdword_of_finalized (h.phase.trans hfin),
      h.respond (by rw [h.hash])⟩
  | rdchar j =>
    have hfin := finalized_of_allowed hp hdis (.inr ⟨j, rfl⟩)
    exact ⟨_, _, exec_rdchar_of_finalized hwf hfin, exec_rdchar_of_finalized hwf (h.phase.trans hfin),
      h.respond (by rw [h.hash])⟩
  | rdstat => exact ⟨_, _, exec_rdstat s, exec_rdstat t, h.respond (by rw [h.statusWord])⟩

/-- R47, R238: the two states take a word the same way, in every phase and whether or not it decodes. -/
theorem runWord_agree (w : Word) (h : AgreeOnValid s t) (hs : Memory.wf s.buf = true) (ht : Memory.wf t.buf = true) :
    ∃ s' t', runWord w s = .next s' ∧ runWord w t = .next t' ∧ AgreeOnValid s' t' := by
  by_cases hp : s.phase = .fault
  · exact ⟨_, _, runWord_of_fault hp, runWord_of_fault (h.phase.trans hp), h.respond (by rw [h.statusWord])⟩
  cases hd : decode w with
  | error e =>
    rw [runWord_of_error hd, runWord_of_error hd, illegalCommand_of_not_fault hp,
      illegalCommand_of_not_fault (h.phase.symm ▸ hp)]
    exact ⟨_, _, rfl, rfl, h.raiseFault _ _⟩
  | ok i =>
    obtain ⟨-, -, -, hwf⟩ := decode_ok_fields hd
    rw [runWord_of_ok hd, runWord_of_ok hd]
    exact h.exec_agree hs ht hwf hp

/-- R47, R267: the two states take everything the host can do the same way. -/
theorem takeEvent_agree (e : HostEvent) (h : AgreeOnValid s t) (hs : Memory.wf s.buf = true)
    (ht : Memory.wf t.buf = true) :
    ∃ s' t', takeEvent e s = .next s' ∧ takeEvent e t = .next t' ∧ AgreeOnValid s' t' := by
  cases e with
  | command w => exact h.runWord_agree w hs ht
  | reset => exact ⟨_, _, rfl, rfl, h.hardwareReset⟩
  | resetDuring w => exact ⟨_, _, rfl, rfl, h.hardwareReset⟩

end AgreeOnValid

/-- Settles O47: both engines idle, or both take the same event. -/
theorem unwrittenCellsAreNeverObserved : Obligations.UnwrittenCellsAreNeverObserved := by
  intro s t s' hs ht h hstep
  cases hin : s.input with
  | nil =>
    rw [idleEngineHoldsItsState s hin] at hstep
    cases hstep
    exact ⟨t, idleEngineHoldsItsState t (h.input.trans hin), h⟩
  | cons e rest =>
    obtain ⟨u, t', hu, ht', hagree⟩ := (h.withInput rest).takeEvent_agree e hs ht
    rw [step_of_input hin, hu] at hstep
    cases hstep
    exact ⟨t', (step_of_input (h.input.trans hin)).trans ht', hagree⟩

end Sys2Proof.Machine
end
